-- ==== Sys2Proof/Word.lean ====
section
/-! DEFINITION. The words of the Stipple VM core (R5, R7): an 8-bit byte, a 32-bit word, and the two readings of a word
as an integer. -/

namespace Sys2Proof

/-- An 8-bit field: an opcode, an `opd`, a byte of program memory (R5). -/
abbrev Byte := BitVec 8

/-- A 32-bit word: an immediate, a payload, `pc`, `program_len`, `sp` (R5). -/
abbrev Word := BitVec 32

/-- `as_i32(w)`: the word read in two's complement (R7). -/
abbrev asI32 (w : Word) : Int := w.toInt

/-- `as_u32(n)`: an integer narrowed to a word, `n mod 2^32` (R7). -/
abbrev asU32 (n : Int) : Word := BitVec.ofInt 32 n

end Sys2Proof
end

