-- ==== Sys2Proof/Config.lean ====
section
/-! DEFINITION. What one build of the block fixes: the implementation parameters of R4, and the values the spec leaves
open for every build (opaque: nothing in Lean can evaluate them). -/

namespace Sys2Proof

/-- `INSTR_SIZE`, bytes per instruction (R4, R53). -/
abbrev instrSize : Nat := 10

/-- `IMM_ENDIAN`: the byte order of `imm1` and `imm2` (R4, R41). -/
inductive Endian where
  | little
  | big
deriving DecidableEq, Repr

/-- The 20 opcodes by name (R60). Their byte values are the parameter `OPCODE_MAP`. -/
inductive Opcode where
  | nop | halt
  | loadG | loadL | storeG | storeL | loadII32
  | addI32 | addU32 | subI32 | mulI32 | divI32
  | cmpI32 | cmpU32
  | jmp | jz | jnz
  | printU32 | printF32 | printI32
deriving DecidableEq, Repr

/-- `OPCODE_MAP` (R4, R60): the byte value of each of the 20 opcodes. Plain data; a legal map is injective
(`Params.wf`). -/
structure OpcodeMap where
  nop : Byte
  halt : Byte
  loadG : Byte
  loadL : Byte
  storeG : Byte
  storeL : Byte
  loadII32 : Byte
  addI32 : Byte
  addU32 : Byte
  subI32 : Byte
  mulI32 : Byte
  divI32 : Byte
  cmpI32 : Byte
  cmpU32 : Byte
  jmp : Byte
  jz : Byte
  jnz : Byte
  printU32 : Byte
  printF32 : Byte
  printI32 : Byte
deriving DecidableEq, Repr

/-- The implementation parameters of R4, `INSTR_SIZE` apart. Every claim is about every legal value of them
(`Params.wf`), never about one build alone. -/
structure Params where
  /-- `PROGRAM_MAX_SIZE`: capacity of program memory in bytes. -/
  programMaxSize : Nat
  /-- `G_VARS_COUNT`: number of global slots. -/
  gVarsCount : Nat
  /-- `STACK_LOCALS_COUNT`: number of local slots. -/
  stackLocalsCount : Nat
  /-- `STACK_VAR_COUNT`: number of stack-var slots. -/
  stackVarCount : Nat
  /-- `G_MEMBUF_COUNT`: number of typed buffers. -/
  gMembufCount : Nat
  /-- `IMM_ENDIAN`. -/
  immEndian : Endian
  /-- `OPCODE_MAP`. -/
  opcodeMap : OpcodeMap
  /-- `PRINT_SUFFIX`: the text the sink appends after each rendering. -/
  printSuffix : List Char
  /-- `DIV_OVF_RESULT`: the result of DIV_I32 for INT32_MIN / -1. -/
  divOvfResult : Word
deriving DecidableEq, Repr

/-- FREE VALUE (assumption 10). R105: "Infinities and NaNs print as the host C library prints them"; no text is stated
(93_implementation_defined.md U11: any value). The text may depend on the whole word. -/
opaque Config.nonFiniteText : Word → List Char

/-- FREE VALUE (assumption 11). R105 rounds the sixth fraction digit "to nearest" and states no rule for an exact tie;
whether a tie goes away from zero may depend on the whole word. -/
opaque Config.tieRoundsAway : Word → Bool

end Sys2Proof
end

