-- ==== Sys2Proof/Syntax.lean ====
section
/-! DEFINITION. The instructions: one constructor per row of spec/opcode_table.json. -/

namespace Sys2Proof

/-- The 20 instructions, in the one format R10 (R53, R54). Each carries all three fields of the record, `opd`, `imm1`
and `imm2`, those it ignores included: every bit pattern of every field is legal for every opcode (R62), and an ignored
field is encoded as given (R66), so no bit of an instruction is lost between its bytes and its syntax. -/
inductive Instr where
  /-- NOP (R109). -/
  | nop (opd : Byte) (imm1 imm2 : Word)
  /-- HALT (R110). -/
  | halt (opd : Byte) (imm1 imm2 : Word)
  /-- LOAD_G (R82). -/
  | loadG (opd : Byte) (imm1 imm2 : Word)
  /-- LOAD_L (R83). -/
  | loadL (opd : Byte) (imm1 imm2 : Word)
  /-- STORE_G (R84). -/
  | storeG (opd : Byte) (imm1 imm2 : Word)
  /-- STORE_L (R85). -/
  | storeL (opd : Byte) (imm1 imm2 : Word)
  /-- LOAD_I_I32 (R86). -/
  | loadII32 (opd : Byte) (imm1 imm2 : Word)
  /-- ADD_I32 (R88). -/
  | addI32 (opd : Byte) (imm1 imm2 : Word)
  /-- ADD_U32 (R89). -/
  | addU32 (opd : Byte) (imm1 imm2 : Word)
  /-- SUB_I32 (R90). -/
  | subI32 (opd : Byte) (imm1 imm2 : Word)
  /-- MUL_I32 (R91). -/
  | mulI32 (opd : Byte) (imm1 imm2 : Word)
  /-- DIV_I32 (R92). -/
  | divI32 (opd : Byte) (imm1 imm2 : Word)
  /-- CMP_I32 (R97). -/
  | cmpI32 (opd : Byte) (imm1 imm2 : Word)
  /-- CMP_U32 (R98). -/
  | cmpU32 (opd : Byte) (imm1 imm2 : Word)
  /-- JMP (R100). -/
  | jmp (opd : Byte) (imm1 imm2 : Word)
  /-- JZ (R101). -/
  | jz (opd : Byte) (imm1 imm2 : Word)
  /-- JNZ (R102). -/
  | jnz (opd : Byte) (imm1 imm2 : Word)
  /-- PRINT_U32 (R106). -/
  | printU32 (opd : Byte) (imm1 imm2 : Word)
  /-- PRINT_F32 (R107). -/
  | printF32 (opd : Byte) (imm1 imm2 : Word)
  /-- PRINT_I32 (R108). -/
  | printI32 (opd : Byte) (imm1 imm2 : Word)
deriving DecidableEq, Repr

end Sys2Proof
end

