-- ==== Sys2Proof/WellFormed.lean ====
section
/-! DEFINITION. What is well formed: the legal values of the implementation parameters (R4), the raw record of an
instruction under a given OPCODE_MAP (R61, R62), and the instruction itself (R62: always). -/

namespace Sys2Proof

/-- All 20 opcodes, in the order of R60's table. -/
def Opcode.all : List Opcode :=
  [.nop, .halt, .loadG, .loadL, .storeG, .storeL, .loadII32] ++
  [.addI32, .addU32, .subI32, .mulI32, .divI32] ++
  [.cmpI32, .cmpU32, .jmp, .jz, .jnz, .printU32, .printF32, .printI32]

/-- The byte values an OPCODE_MAP assigns, in the order of R60's table. -/
def OpcodeMap.bytes (m : OpcodeMap) : List Byte :=
  [m.nop, m.halt, m.loadG, m.loadL, m.storeG, m.storeL, m.loadII32] ++
  [m.addI32, m.addU32, m.subI32, m.mulI32, m.divI32] ++
  [m.cmpI32, m.cmpU32, m.jmp, m.jz, m.jnz, m.printU32, m.printF32, m.printI32]

/-- A legal OPCODE_MAP is injective (R4, R60). -/
abbrev OpcodeMap.wf (m : OpcodeMap) : Prop := m.bytes.Nodup

/-- The legal values of the parameters (R4): `10 ≤ PROGRAM_MAX_SIZE ≤ 2^32 − 11`, bank counts 1 to 256, buffer count 0
to 256, an injective OPCODE_MAP. Every `IMM_ENDIAN`, `PRINT_SUFFIX` and `DIV_OVF_RESULT` is legal. -/
structure Params.wf (p : Params) : Prop where
  programMaxSize_ge : 10 ≤ p.programMaxSize
  programMaxSize_le : p.programMaxSize ≤ 2 ^ 32 - 11
  gVarsCount_ge : 1 ≤ p.gVarsCount
  gVarsCount_le : p.gVarsCount ≤ 256
  stackLocalsCount_ge : 1 ≤ p.stackLocalsCount
  stackLocalsCount_le : p.stackLocalsCount ≤ 256
  stackVarCount_ge : 1 ≤ p.stackVarCount
  stackVarCount_le : p.stackVarCount ≤ 256
  gMembufCount_le : p.gMembufCount ≤ 256
  opcodeMap_wf : p.opcodeMap.wf

/-- A raw opcode byte is well formed under a map iff the map assigns it (R61): every other value is illegal. -/
def OpcodeMap.assigns (m : OpcodeMap) (b : Byte) : Bool := m.bytes.contains b

/-- Every instruction is well formed: "Every byte pattern of `opd`, `imm1` and `imm2` is legal for every opcode", and no
field has reserved bits (R62). The widths of the fields are the types of `Instr`. -/
def Instr.wf (i : Instr) : Bool :=
  match i with
  | .nop _ _ _ | .halt _ _ _ => true
  | .loadG _ _ _ | .loadL _ _ _ | .storeG _ _ _ | .storeL _ _ _ | .loadII32 _ _ _ => true
  | .addI32 _ _ _ | .addU32 _ _ _ | .subI32 _ _ _ | .mulI32 _ _ _ | .divI32 _ _ _ => true
  | .cmpI32 _ _ _ | .cmpU32 _ _ _ => true
  | .jmp _ _ _ | .jz _ _ _ | .jnz _ _ _ => true
  | .printU32 _ _ _ | .printF32 _ _ _ | .printI32 _ _ _ => true

end Sys2Proof
end

