-- ==== Sys2Proof/Decode.lean ====
section
/-! DEFINITION. Decoding and encoding of the one format R10 (30_encoding.md): total on any bytes, rejecting by name,
for every OPCODE_MAP and every IMM_ENDIAN. -/

namespace Sys2Proof

/-- The default OPCODE_MAP (R60). -/
def OpcodeMap.default : OpcodeMap where
  nop := 0x00
  halt := 0x01
  loadG := 0x10
  loadL := 0x11
  storeG := 0x12
  storeL := 0x13
  loadII32 := 0x14
  addI32 := 0x20
  addU32 := 0x21
  subI32 := 0x22
  mulI32 := 0x23
  divI32 := 0x24
  cmpI32 := 0x30
  cmpU32 := 0x31
  jmp := 0x40
  jz := 0x41
  jnz := 0x42
  printU32 := 0x50
  printF32 := 0x51
  printI32 := 0x52

/-- `OPCODE_MAP(op)` (R60). -/
def OpcodeMap.byteOf (m : OpcodeMap) : Opcode → Byte
  | .nop => m.nop
  | .halt => m.halt
  | .loadG => m.loadG
  | .loadL => m.loadL
  | .storeG => m.storeG
  | .storeL => m.storeL
  | .loadII32 => m.loadII32
  | .addI32 => m.addI32
  | .addU32 => m.addU32
  | .subI32 => m.subI32
  | .mulI32 => m.mulI32
  | .divI32 => m.divI32
  | .cmpI32 => m.cmpI32
  | .cmpU32 => m.cmpU32
  | .jmp => m.jmp
  | .jz => m.jz
  | .jnz => m.jnz
  | .printU32 => m.printU32
  | .printF32 => m.printF32
  | .printI32 => m.printI32

/-- The opcode a byte stands for: dispatch reads no field but `opcode` (R55, R74); none where no mnemonic maps to it
(R61). -/
def OpcodeMap.opcodeOf (m : OpcodeMap) (b : Byte) : Option Opcode :=
  Opcode.all.find? fun op => m.byteOf op == b

/-- The instruction with a given opcode and fields. -/
def Instr.make (op : Opcode) (opd : Byte) (imm1 imm2 : Word) : Instr :=
  match op with
  | .nop => .nop opd imm1 imm2
  | .halt => .halt opd imm1 imm2
  | .loadG => .loadG opd imm1 imm2
  | .loadL => .loadL opd imm1 imm2
  | .storeG => .storeG opd imm1 imm2
  | .storeL => .storeL opd imm1 imm2
  | .loadII32 => .loadII32 opd imm1 imm2
  | .addI32 => .addI32 opd imm1 imm2
  | .addU32 => .addU32 opd imm1 imm2
  | .subI32 => .subI32 opd imm1 imm2
  | .mulI32 => .mulI32 opd imm1 imm2
  | .divI32 => .divI32 opd imm1 imm2
  | .cmpI32 => .cmpI32 opd imm1 imm2
  | .cmpU32 => .cmpU32 opd imm1 imm2
  | .jmp => .jmp opd imm1 imm2
  | .jz => .jz opd imm1 imm2
  | .jnz => .jnz opd imm1 imm2
  | .printU32 => .printU32 opd imm1 imm2
  | .printF32 => .printF32 opd imm1 imm2
  | .printI32 => .printI32 opd imm1 imm2

/-- The record of an instruction: its opcode and its three fields (R54, R72). -/
def Instr.record : Instr → Opcode × Byte × Word × Word
  | .nop o a b => (.nop, o, a, b)
  | .halt o a b => (.halt, o, a, b)
  | .loadG o a b => (.loadG, o, a, b)
  | .loadL o a b => (.loadL, o, a, b)
  | .storeG o a b => (.storeG, o, a, b)
  | .storeL o a b => (.storeL, o, a, b)
  | .loadII32 o a b => (.loadII32, o, a, b)
  | .addI32 o a b => (.addI32, o, a, b)
  | .addU32 o a b => (.addU32, o, a, b)
  | .subI32 o a b => (.subI32, o, a, b)
  | .mulI32 o a b => (.mulI32, o, a, b)
  | .divI32 o a b => (.divI32, o, a, b)
  | .cmpI32 o a b => (.cmpI32, o, a, b)
  | .cmpU32 o a b => (.cmpU32, o, a, b)
  | .jmp o a b => (.jmp, o, a, b)
  | .jz o a b => (.jz, o, a, b)
  | .jnz o a b => (.jnz, o, a, b)
  | .printU32 o a b => (.printU32, o, a, b)
  | .printF32 o a b => (.printF32, o, a, b)
  | .printI32 o a b => (.printI32, o, a, b)

/-- The opcode of an instruction. -/
def Instr.opcode (i : Instr) : Opcode := i.record.1

/-- `MemRead(a, 4)` assembles four bytes, the one at the lowest offset first (R42, R57). -/
def wordOfBytes (e : Endian) (b0 b1 b2 b3 : Byte) : Word :=
  match e with
  | .little => b3 ++ b2 ++ b1 ++ b0
  | .big => b0 ++ b1 ++ b2 ++ b3

/-- `W(w)` of R64: the four bytes of a word at ascending offsets. -/
def bytesOfWord (e : Endian) (w : Word) : List Byte :=
  let bytes := [w.extractLsb' 0 8, w.extractLsb' 8 8, w.extractLsb' 16 8, w.extractLsb' 24 8]
  match e with
  | .little => bytes
  | .big => bytes.reverse

/-- Why bytes are no instruction. -/
inductive DecodeReject where
  /-- No mnemonic maps to the first byte (R61): the step raises ERR_INVALID_OPCODE (R74). -/
  | unassignedOpcode (b : Byte)
  /-- Fewer than `INSTR_SIZE` bytes: the step has already raised ERR_INVALID_INSTRUCTION (R71). -/
  | truncated
deriving DecidableEq, Repr

/-- `decode` (R70, R72): the first ten bytes as the record `opcode, opd, imm1, imm2` (R54 to R57). Total; its content
rejects only an unassigned opcode. -/
def decode (m : OpcodeMap) (e : Endian) : List Byte → Except DecodeReject Instr
  | op :: opd :: a0 :: a1 :: a2 :: a3 :: b0 :: b1 :: b2 :: b3 :: _ =>
    match m.opcodeOf op with
    | some o => .ok (Instr.make o opd (wordOfBytes e a0 a1 a2 a3) (wordOfBytes e b0 b1 b2 b3))
    | none => .error (.unassignedOpcode op)
  | _ => .error .truncated

/-- `enc(op, o, a, b)` (R64). -/
def encode (m : OpcodeMap) (e : Endian) (i : Instr) : List Byte :=
  match i.record with
  | (op, opd, imm1, imm2) => [m.byteOf op, opd] ++ bytesOfWord e imm1 ++ bytesOfWord e imm2

/-- The ten bytes of an instruction given as a number whose bit 0 is the least significant bit of the first byte, and
whose bits above `nbits` are taken as 0: byte k is `w[8k+7:8k]`. -/
def tableBytes (nbits w : Nat) : List Byte :=
  (List.range instrSize).map fun k => BitVec.ofNat 8 ((w % 2 ^ nbits) >>> (8 * k))

/-- The instruction the decoder reads from a row's word of spec/opcode_table.json, whose `match` bytes are the default
OPCODE_MAP (R60) and whose immediates are little-endian (R41). -/
def decodeTableWord (nbits w : Nat) : Option Instr :=
  match decode OpcodeMap.default .little (tableBytes nbits w) with
  | .ok i => some i
  | .error _ => none

end Sys2Proof
end

