-- ==== Sys2Proof/Machine/Reference.lean ====
section
/-! DEFINITION. The reference configuration RC (R4's last column), the parameters `State.reset` is built with. -/

/-- RC (R4): the one configuration the spec gives values for. DESIGN CHOICE (assumption 2): `State.reset` is a build at
RC; no claim but those about `State.reset` itself rests on these values. `PRINT_SUFFIX` is "not used" in RC and is empty
here. -/
def Sys2Proof.Params.rc : Sys2Proof.Params where
  programMaxSize := 1024
  gVarsCount := 32
  stackLocalsCount := 16
  stackVarCount := 64
  gMembufCount := 4
  immEndian := .little
  opcodeMap := Sys2Proof.OpcodeMap.default
  printSuffix := []
  divOvfResult := 0x80000000
end

