-- ==== Sys2Proof/Machine/State.lean ====
section
/-! DEFINITION. The state of the Stipple VM core (R13), its values after INIT (R35), and the reasons a step can stop. -/

namespace Sys2Proof.Machine

/-- The tags of a Typed Value (R14). -/
inductive Tag where
  | void | i32 | u32 | float | u8x4 | u16x2 | unicode | globalRef | stackRef | bufferRef | bufferPos
deriving DecidableEq, Repr

/-- A Typed Value (R14, R15): every tag but VOID carries a 32-bit payload. VOID is the valid "empty" state and carries
none (U15), so two Typed Values are equal as R8 says. -/
inductive TypedValue where
  | void
  /-- A 32-bit word in two's complement. -/
  | i32 (w : Word)
  /-- A 32-bit unsigned word. -/
  | u32 (w : Word)
  /-- An IEEE 754 binary32 encoding. -/
  | float (w : Word)
  /-- Four 8-bit lanes, lane k = `pay[8k+7:8k]`. -/
  | u8x4 (w : Word)
  /-- Two 16-bit lanes, lane k = `pay[16k+15:16k]`. -/
  | u16x2 (w : Word)
  /-- A 32-bit code point. -/
  | unicode (w : Word)
  /-- An opaque word, as are the three below. -/
  | globalRef (w : Word)
  | stackRef (w : Word)
  | bufferRef (w : Word)
  | bufferPos (w : Word)
deriving DecidableEq, Repr

/-- The types of a Typed Buffer (R21). -/
inductive BufferType where
  | void | u8 | u16 | i32 | u32 | float
deriving DecidableEq, Repr

/-- Bytes by offset: only the bytes that differ from what an unlisted offset reads as (0: R35 zero-fills all storage),
at strictly rising offsets. -/
abbrev Memory := List Host.Cell

/-- A Typed Buffer (R21): its type and its 256 bytes of element storage. -/
structure TypedBuffer where
  bufferType : BufferType
  elements : Memory
deriving DecidableEq, Repr

/-- The status codes (R111; the names are those of R10). -/
inductive Status where
  | ok
  | errStackOverflow
  | errStackUnderflow
  | errDivByZero
  | errInvalidOpcode
  | errTypeMismatch
  | errArrayBounds
  | errInvalidGlobalIdx
  | errInvalidLocalIdx
  | errInvalidStackVarIdx
  | errInvalidBufferIdx
  | errInvalidBufferPos
  | errInvalidPc
  | errInvalidInstruction
  | errProgramTooLarge
  | errHalt
deriving DecidableEq, Repr

/-- The kinds of an output event (R104). -/
inductive EventKind where
  | u32 | f32 | i32
deriving DecidableEq, Repr

/-- One event `(kind, w)` of the output port (R104). -/
structure OutEvent where
  kind : EventKind
  word : Word
deriving DecidableEq, Repr

/-- The state. The fields from `program` to `flags` are exactly R13's. `params` is the build's configuration, which
nothing writes (assumption 1). `output` and `stepStatus` are the MODEL's own record of what the block has sent out of
itself: the events of its output port and the status its last STEP returned; nothing in the block reads them
(assumptions 3 and 4). -/
structure State where
  /-- The implementation parameters of this build (R4). Constant. -/
  params : Params
  /-- Program memory, `PROGRAM_MAX_SIZE` bytes (R38). -/
  program : Memory
  /-- `program_len` (R24). -/
  programLen : Word
  /-- `pc`, a byte offset into `program` (R23). -/
  pc : Word
  /-- The global bank G (R17). -/
  globals : List TypedValue
  /-- The local bank L (R18). -/
  locals : List TypedValue
  /-- The stack-var bank S (R19). -/
  stackVars : List TypedValue
  /-- The buffer bank BUF (R22). -/
  buffers : List TypedBuffer
  /-- `sp` (R31). -/
  sp : Word
  /-- `flags` (R25): bit 0 ZERO, bit 1 LESS, bit 2 GREATER, bits 7:3 hardwired to 0. -/
  flags : BitVec 8
  /-- The events the output port has carried, oldest first (R104). -/
  output : List OutEvent
  /-- The status the last STEP returned to the host (R127). -/
  stepStatus : Status
deriving DecidableEq, Repr

/-- What stops the machine without a status. -/
inductive Fault where
  /-- Raised by a fetch that reads a program byte at an offset that is not below `PROGRAM_MAX_SIZE`: R38 says there is
  no such byte. It needs `program_len > PROGRAM_MAX_SIZE`, which no reachable state has (R36). Safe. -/
  | absentProgramByte
deriving DecidableEq, Repr

/-- Why an instruction has no meaning. -/
inductive Refusal where
  /-- Raised by `exec`'s arm of an instruction that has no meaning yet; no arm does. Safe. -/
  | notModelled (mnemonic : String)
deriving DecidableEq, Repr

/-- What a step, an instruction or an operation over the state answers. -/
abbrev Result := Host.Outcome State Fault Refusal

/-- The state after INIT of a build with the parameters `p` (R35, R137): every slot VOID, every buffer VOID with zero
elements, everything else 0. The model's own `output` is empty and its `stepStatus` OK (DESIGN CHOICE, assumptions 3
and 4: nothing reads them). -/
def State.init (p : Params) : State where
  params := p
  program := []
  programLen := 0
  pc := 0
  globals := List.replicate p.gVarsCount .void
  locals := List.replicate p.stackLocalsCount .void
  stackVars := List.replicate p.stackVarCount .void
  buffers := List.replicate p.gMembufCount ⟨.void, []⟩
  sp := 0
  flags := 0
  output := []
  stepStatus := .ok

/-- The machine right after reset: "`reset` is semantically identical to re-`init`" (R138), of the reference build
(assumption 2). -/
def State.reset : State := State.init Params.rc

end Sys2Proof.Machine
end

