-- ==== Sys2Proof/Machine/Codes.lean ====
section
/-! DEFINITION. The numeric codes of R14, R21 and R111, and what a tag or a buffer type says of its data. -/

namespace Sys2Proof.Machine

/-- The tag codes, as INSPECT shows them (R14). -/
def Tag.code : Tag → Nat
  | .void => 0
  | .i32 => 1
  | .u32 => 2
  | .float => 3
  | .u8x4 => 4
  | .u16x2 => 5
  | .unicode => 6
  | .globalRef => 7
  | .stackRef => 8
  | .bufferRef => 9
  | .bufferPos => 10

/-- The buffer-type codes (R21). -/
def BufferType.code : BufferType → Nat
  | .void => 0
  | .u8 => 1
  | .u16 => 2
  | .i32 => 3
  | .u32 => 4
  | .float => 5

/-- The status codes (R111). -/
def Status.code : Status → Nat
  | .ok => 0
  | .errStackOverflow => 1
  | .errStackUnderflow => 2
  | .errDivByZero => 3
  | .errInvalidOpcode => 4
  | .errTypeMismatch => 5
  | .errArrayBounds => 6
  | .errInvalidGlobalIdx => 7
  | .errInvalidLocalIdx => 8
  | .errInvalidStackVarIdx => 9
  | .errInvalidBufferIdx => 10
  | .errInvalidBufferPos => 11
  | .errInvalidPc => 12
  | .errInvalidInstruction => 13
  | .errProgramTooLarge => 14
  | .errHalt => 15

/-- `tag(v)` (R8). -/
def TypedValue.tag : TypedValue → Tag
  | .void => .void
  | .i32 _ => .i32
  | .u32 _ => .u32
  | .float _ => .float
  | .u8x4 _ => .u8x4
  | .u16x2 _ => .u16x2
  | .unicode _ => .unicode
  | .globalRef _ => .globalRef
  | .stackRef _ => .stackRef
  | .bufferRef _ => .bufferRef
  | .bufferPos _ => .bufferPos

/-- `pay(v)` (R8); of VOID, the 0 INSPECT shows (R15): no typed consumer reads it. -/
def TypedValue.pay : TypedValue → Word
  | .void => 0
  | .i32 w | .u32 w | .float w | .u8x4 w | .u16x2 w | .unicode w => w
  | .globalRef w | .stackRef w | .bufferRef w | .bufferPos w => w

/-- The value `(tag, w)` (R8). -/
def TypedValue.ofTag (t : Tag) (w : Word) : TypedValue :=
  match t with
  | .void => .void
  | .i32 => .i32 w
  | .u32 => .u32 w
  | .float => .float w
  | .u8x4 => .u8x4 w
  | .u16x2 => .u16x2 w
  | .unicode => .unicode w
  | .globalRef => .globalRef w
  | .stackRef => .stackRef w
  | .bufferRef => .bufferRef w
  | .bufferPos => .bufferPos w

/-- Lane k of a U8X4 payload (R15). -/
def lane8 (w : Word) (k : Fin 4) : BitVec 8 := w.extractLsb' (8 * k) 8

/-- Lane k of a U16X2 payload (R15). -/
def lane16 (w : Word) (k : Fin 2) : BitVec 16 := w.extractLsb' (16 * k) 16

/-- `capacity(t)`: how many elements a buffer of type `t` holds (R21). -/
def BufferType.capacity : BufferType → Nat
  | .void => 0
  | .u8 => 256
  | .u16 => 128
  | .i32 => 64
  | .u32 => 64
  | .float => 64

/-- The width in bytes of one element of a buffer of type `t` (R21). -/
def BufferType.elementBytes : BufferType → Nat
  | .void => 0
  | .u8 => 1
  | .u16 => 2
  | .i32 => 4
  | .u32 => 4
  | .float => 4

/-- The bytes of element storage a Typed Buffer has (R21). A VOID buffer has them too: INIT leaves "every element byte 0"
(R35). -/
def bufferBytes : Nat := 256

end Sys2Proof.Machine
end

