-- ==== Sys2Proof/Machine/Ops.lean ====
section
/-! DEFINITION. The shared operations over memory, the banks, the output port and `pc`: reads and writes, ending a step
with OK (the commit), and ending it with an error (trap entry). -/

namespace Sys2Proof.Machine

/-- What an offset that is not listed reads as: 0, by INIT's zero-fill (R35). -/
def Memory.unlisted : Byte := 0

/-- The byte at an offset (R42, `MemRead(a, 1)`). -/
def Memory.read : Memory → Nat → Byte
  | [], _ => Memory.unlisted
  | (k, b) :: m, a => if k = a then b else Memory.read m a

/-- One byte put before a memory, unless it is what an unlisted offset reads as. -/
def Memory.put (a : Nat) (v : Byte) (m : Memory) : Memory :=
  if v = Memory.unlisted then m else (a, v) :: m

/-- One byte written, in the canonical form. -/
def Memory.write : Memory → Nat → Byte → Memory
  | [], a, v => Memory.put a v []
  | (k, b) :: m, a, v =>
    if a < k then Memory.put a v ((k, b) :: m)
    else if a = k then Memory.put a v m
    else (k, b) :: Memory.write m a v

/-- Consecutive bytes written from an offset up. -/
def Memory.writeBytes : Memory → Nat → List Byte → Memory
  | m, _, [] => m
  | m, a, v :: vs => Memory.writeBytes (Memory.write m a v) (a + 1) vs

/-- The canonical form: strictly rising offsets, no byte equal to what an unlisted offset reads as. -/
abbrev Memory.wf (m : Memory) : Prop :=
  m.Pairwise (fun c d => c.1 < d.1) ∧ ∀ c ∈ m, c.2 ≠ Memory.unlisted

/-- Every listed offset lies below a size. -/
abbrev Memory.below (m : Memory) (n : Nat) : Prop := ∀ c ∈ m, c.1 < n

/-- `MemRead(a, 1)` on program memory; none where there is no such byte (R38). -/
def readProgram (a : Nat) (s : State) : Option Byte :=
  if a < s.params.programMaxSize then some (s.program.read a) else none

/-- `n` program bytes at ascending offsets from `a` (R41). -/
def readProgramBytes : Nat → Nat → State → Option (List Byte)
  | 0, _, _ => some []
  | n + 1, a, s =>
    match readProgram a s, readProgramBytes n (a + 1) s with
    | some b, some bs => some (b :: bs)
    | _, _ => none

/-- `G[i]`, none beyond the bank: G is an array of `G_VARS_COUNT` slots (R17, R27). -/
def readG (i : Nat) (s : State) : Option TypedValue := s.globals[i]?

/-- `L[i]`, none beyond the bank: L is an array of `STACK_LOCALS_COUNT` slots (R18, R28). -/
def readL (i : Nat) (s : State) : Option TypedValue := s.locals[i]?

/-- `S[i]`, none beyond the bank: S is an array of `STACK_VAR_COUNT` slots (R19, R26). -/
def readS (i : Nat) (s : State) : Option TypedValue := s.stackVars[i]?

/-- `BUF[i]`, none beyond the bank: BUF is an array of `G_MEMBUF_COUNT` buffers (R22, R29). -/
def readB (i : Nat) (s : State) : Option TypedBuffer := s.buffers[i]?

/-- `G[i] <- v`, tag and payload (R9, R76). -/
def writeG (i : Nat) (v : TypedValue) (s : State) : State := { s with globals := s.globals.set i v }

/-- `L[i] <- v`, tag and payload (R9, R76). -/
def writeL (i : Nat) (v : TypedValue) (s : State) : State := { s with locals := s.locals.set i v }

/-- `S[i] <- v`, tag and payload (R9, R76). -/
def writeS (i : Nat) (v : TypedValue) (s : State) : State := { s with stackVars := s.stackVars.set i v }

/-- `emit(kind, w)`: one event on the output port, which accepts it at once (R9, R104). -/
def emit (kind : EventKind) (w : Word) (s : State) : State := { s with output := s.output ++ [⟨kind, w⟩] }

/-- The default successor, `next_pc = pc + INSTR_SIZE` (R73). A 32-bit sum: the fetch check has passed, so it does not
wrap (R23, R43). -/
def nextPc (s : State) : Word := s.pc + 10

/-- The commit (R77): the step ends with status OK and `pc <- target`; `s` holds the writes of the instruction. -/
def commit (target : Word) (s : State) : Result := .next { s with pc := target, stepStatus := .ok }

/-- The commit of an instruction that keeps the default successor (R73, R77). -/
def advance (s : State) : Result := commit (nextPc s) s

/-- Taking an exception (R78, R118, and R79 for HALT): the step ends with the error status `e`, which goes to the host;
no slot, no flag, no event is written, `pc` stays at the failing instruction; no register saves anything, no mode
changes and there is no handler address, so nothing but the returned status differs. `s` is the state at the start of
the step. There is no return from an exception (R119): the host's next STEP, LOAD or INIT goes on from this state
(R122: a STEP reports the same status again). Assumption 3. -/
def raise (e : Status) (s : State) : Result := .next { s with stepStatus := e }

end Sys2Proof.Machine
end

