-- ==== Sys2Proof/Machine/Operands.lean ====
section
/-! DEFINITION. The operand forms: index checks, masked indices, tag checks and jump targets, each in the order R75 and
R81 give. A form hands what it yields to the rest of the instruction, or ends the step with its error. -/

namespace Sys2Proof.Machine

/-- Masked index, `imm & 0xFF` (R57, R58). -/
def maskedIdx (imm : Word) : Nat := (imm &&& 0xFF).toNat

/-- `resolve_S(i)` (R26). -/
def resolveS (i : Nat) (s : State) (k : TypedValue → Result) : Result :=
  match readS i s with
  | some v => k v
  | none => raise .errInvalidStackVarIdx s

/-- `resolve_G(i)` (R27). -/
def resolveG (i : Nat) (s : State) (k : TypedValue → Result) : Result :=
  match readG i s with
  | some v => k v
  | none => raise .errInvalidGlobalIdx s

/-- `resolve_L(i)` (R28). -/
def resolveL (i : Nat) (s : State) (k : TypedValue → Result) : Result :=
  match readL i s with
  | some v => k v
  | none => raise .errInvalidLocalIdx s

/-- `resolve_B(i)` (R29). No instruction in scope uses it (D33). -/
def resolveB (i : Nat) (s : State) (k : TypedBuffer → Result) : Result :=
  match readB i s with
  | some b => k b
  | none => raise .errInvalidBufferIdx s

/-- `validate_buffer_pos(t, pos)` (R30). -/
def validateBufferPos (t : BufferType) (pos : Nat) : Bool := pos < t.capacity

/-- A positional access fails where the position is not valid (R30). No instruction in scope performs one (D33). -/
def resolveBufferPos (b : TypedBuffer) (pos : Nat) (s : State) (k : Result) : Result :=
  if validateBufferPos b.bufferType pos then k else raise .errInvalidBufferPos s

/-- The type check of one source (R75 phase 2): its payload, or ERR_TYPE_MISMATCH. VOID carries no typed payload, so
every required tag rejects it (R16). -/
def requireTag (t : Tag) (v : TypedValue) (s : State) (k : Word → Result) : Result :=
  if v.tag = t then k v.pay else raise .errTypeMismatch s

/-- The type checks of two sources, src1 first (R81). -/
def requireTags (t : Tag) (v w : TypedValue) (s : State) (k : Word → Word → Result) : Result :=
  requireTag t v s fun x => requireTag t w s fun y => k x y

/-- The operands of the five arithmetic instructions (R87): src1, src2 and the destination resolved, then the tags of
the sources checked, then both payloads handed on. -/
def binopOperands (t : Tag) (opd : Byte) (imm1 imm2 : Word) (s : State) (k : Word → Word → Result) : Result :=
  resolveS (maskedIdx imm1) s fun v =>
  resolveS (maskedIdx imm2) s fun w =>
  resolveS opd.toNat s fun _ =>
  requireTags t v w s k

/-- The operands of the two comparisons (R95). -/
def cmpOperands (t : Tag) (imm1 imm2 : Word) (s : State) (k : Word → Word → Result) : Result :=
  resolveS (maskedIdx imm1) s fun v =>
  resolveS (maskedIdx imm2) s fun w =>
  requireTags t v w s k

/-- The operand of the three output instructions (R106). -/
def printOperand (t : Tag) (imm1 : Word) (s : State) (k : Word → Result) : Result :=
  resolveS (maskedIdx imm1) s fun v => requireTag t v s k

/-- `take(imm1)` (R99): an absolute target, checked as an unsigned word before `pc` changes. -/
def takeJump (imm1 : Word) (s : State) : Result :=
  if imm1.toNat < s.programLen.toNat then commit imm1 s else raise .errInvalidPc s

end Sys2Proof.Machine
end

