-- ==== Sys2Proof/Machine/Arithmetic.lean ====
section
/-! DEFINITION. Arithmetic (42_arithmetic.md): computed exactly on integers and narrowed at the end (R93). -/

namespace Sys2Proof.Machine

/-- `binop` of R87 with no check of its own: `S[opd] <- (T, f(x, y))`. -/
def binop (t : Tag) (f : Word → Word → Word) (opd : Byte) (imm1 imm2 : Word) (s : State) : Result :=
  binopOperands t opd imm1 imm2 s fun x y => advance (writeS opd.toNat (.ofTag t (f x y)) s)

/-- The I32 sum (R88). -/
def addI32 (x y : Word) : Word := asU32 (asI32 x + asI32 y)

/-- The U32 sum, `(x + y) mod 2^32` (R89). -/
def addU32 (x y : Word) : Word := BitVec.ofNat 32 (x.toNat + y.toNat)

/-- The I32 difference (R90). -/
def subI32 (x y : Word) : Word := asU32 (asI32 x - asI32 y)

/-- The low 32 bits of the I32 product (R91). -/
def mulI32 (x y : Word) : Word := asU32 (asI32 x * asI32 y)

/-- The I32 quotient, rounded toward zero; `ovf` is the build's `DIV_OVF_RESULT`, the result of INT32_MIN / -1 (R92). -/
def divI32 (ovf x y : Word) : Word :=
  if asI32 x = -2 ^ 31 ∧ asI32 y = -1 then ovf else asU32 ((asI32 x).tdiv (asI32 y))

/-- ADD_I32 (R88). -/
def execAddI32 (opd : Byte) (imm1 imm2 : Word) (s : State) : Result := binop .i32 addI32 opd imm1 imm2 s

/-- ADD_U32 (R89). -/
def execAddU32 (opd : Byte) (imm1 imm2 : Word) (s : State) : Result := binop .u32 addU32 opd imm1 imm2 s

/-- SUB_I32 (R90). -/
def execSubI32 (opd : Byte) (imm1 imm2 : Word) (s : State) : Result := binop .i32 subI32 opd imm1 imm2 s

/-- MUL_I32 (R91). -/
def execMulI32 (opd : Byte) (imm1 imm2 : Word) (s : State) : Result := binop .i32 mulI32 opd imm1 imm2 s

/-- DIV_I32 (R92): the zero divisor is checked after the index and type checks and before dividing. -/
def execDivI32 (opd : Byte) (imm1 imm2 : Word) (s : State) : Result :=
  binopOperands .i32 opd imm1 imm2 s fun x y =>
    if asI32 y = 0 then raise .errDivByZero s
    else advance (writeS opd.toNat (.i32 (divI32 s.params.divOvfResult x y)) s)

end Sys2Proof.Machine
end

