-- ==== Sys2Proof/Machine/Flags.lean ====
section
/-! DEFINITION. The flag register (R25): its one reader, its one writer, and the flag computation of the comparisons. -/

namespace Sys2Proof.Machine

/-- The bits of `flags` that exist: bits 7:3 are hardwired to 0 (R25, R33). -/
def flagsMask : BitVec 8 := 0b00000111

/-- `flags` as it reads. -/
def readFlags (s : State) : BitVec 8 := s.flags &&& flagsMask

/-- `flags <- f` (R9); bits 7:3 discard what is written. -/
def writeFlags (f : BitVec 8) (s : State) : State := { s with flags := f &&& flagsMask }

/-- `flags.ZERO`, bit 0 (R25): the one flag an instruction reads. -/
def zeroFlag (s : State) : Bool := (readFlags s).getLsbD 0

/-- `0b00000 ++ [a > b] ++ [a < b] ++ [a = b]` (R95). -/
def cmpFlags (lt : Word → Word → Bool) (a b : Word) : BitVec 8 :=
  0#5 ++ BitVec.ofBool (lt b a) ++ BitVec.ofBool (lt a b) ++ BitVec.ofBool (a == b)

/-- The signed order (R97). -/
def ltI32 (a b : Word) : Bool := asI32 a < asI32 b

/-- The unsigned order (R98). -/
def ltU32 (a b : Word) : Bool := a.toNat < b.toNat

end Sys2Proof.Machine
end

