-- ==== Sys2Proof/Machine/Comparison.lean ====
section
/-! DEFINITION. Comparison (43_comparison.md): a valid comparison rewrites the whole flag register and nothing else; a
failed one keeps it (R95, R96, 90_conflicts.md C4). -/

namespace Sys2Proof.Machine

/-- `cmp` of R95. -/
def compareSlots (t : Tag) (lt : Word → Word → Bool) (imm1 imm2 : Word) (s : State) : Result :=
  cmpOperands t imm1 imm2 s fun a b => advance (writeFlags (cmpFlags lt a b) s)

/-- CMP_I32 (R97); `opd` is ignored. -/
def execCmpI32 (imm1 imm2 : Word) (s : State) : Result := compareSlots .i32 ltI32 imm1 imm2 s

/-- CMP_U32 (R98); `opd` is ignored. -/
def execCmpU32 (imm1 imm2 : Word) (s : State) : Result := compareSlots .u32 ltU32 imm1 imm2 s

end Sys2Proof.Machine
end

