-- ==== Sys2Proof/Machine/ControlFlow.lean ====
section
/-! DEFINITION. Control flow (44_control_flow.md): absolute targets, checked only when the jump is taken. -/

namespace Sys2Proof.Machine

/-- JMP (R100). -/
def execJmp (imm1 : Word) (s : State) : Result := takeJump imm1 s

/-- JZ (R101): a no-op when ZERO is clear, its target then unchecked. -/
def execJz (imm1 : Word) (s : State) : Result := if zeroFlag s then takeJump imm1 s else advance s

/-- JNZ (R102): a no-op when ZERO is set, its target then unchecked. -/
def execJnz (imm1 : Word) (s : State) : Result := if zeroFlag s then advance s else takeJump imm1 s

end Sys2Proof.Machine
end

