-- ==== Sys2Proof/Machine/DataMovement.lean ====
section
/-! DEFINITION. Data movement (41_data_movement.md): a whole Typed Value is copied, with no type check, and `pc` takes
the default successor. The source is resolved before the destination (R81). -/

namespace Sys2Proof.Machine

/-- LOAD_G (R82): `S[opd] <- G[imm1]`. -/
def execLoadG (opd : Byte) (imm1 : Word) (s : State) : Result :=
  resolveG imm1.toNat s fun v => resolveS opd.toNat s fun _ => advance (writeS opd.toNat v s)

/-- LOAD_L (R83): `S[opd] <- L[imm1]`; the index is absolute, `sp` takes no part. -/
def execLoadL (opd : Byte) (imm1 : Word) (s : State) : Result :=
  resolveL imm1.toNat s fun v => resolveS opd.toNat s fun _ => advance (writeS opd.toNat v s)

/-- STORE_G (R84): `G[imm1] <- S[opd]`. -/
def execStoreG (opd : Byte) (imm1 : Word) (s : State) : Result :=
  resolveS opd.toNat s fun v => resolveG imm1.toNat s fun _ => advance (writeG imm1.toNat v s)

/-- STORE_L (R85): `L[imm1] <- S[opd]`. -/
def execStoreL (opd : Byte) (imm1 : Word) (s : State) : Result :=
  resolveS opd.toNat s fun v => resolveL imm1.toNat s fun _ => advance (writeL imm1.toNat v s)

/-- LOAD_I_I32 (R86): `S[opd] <- (I32, as_i32(imm1))`, the literal's word unchanged. -/
def execLoadII32 (opd : Byte) (imm1 : Word) (s : State) : Result :=
  resolveS opd.toNat s fun _ => advance (writeS opd.toNat (.i32 imm1) s)

end Sys2Proof.Machine
end

