-- ==== Sys2Proof/Machine/Misc.lean ====
section
/-! DEFINITION. Miscellaneous (46_misc.md). -/

namespace Sys2Proof.Machine

/-- NOP (R109). -/
def execNop (s : State) : Result := advance s

/-- HALT (R110, R79): always ERR_HALT; no write, and `pc` stays at the HALT. There is no latch: a later STEP executes it
again (R135). RUN maps the status to OK (R132, `mapHalt`). -/
def execHalt (s : State) : Result := raise .errHalt s

end Sys2Proof.Machine
end

