-- ==== Sys2Proof/Machine/Output.lean ====
section
/-! DEFINITION. Output (45_output.md): one typed slot read, one event emitted, nothing else written. -/

namespace Sys2Proof.Machine

/-- The shared form of R106 to R108: the payload of a slot with the required tag goes out as one event. -/
def printSlot (t : Tag) (kind : EventKind) (imm1 : Word) (s : State) : Result :=
  printOperand t imm1 s fun w => advance (emit kind w s)

/-- PRINT_U32 (R106). -/
def execPrintU32 (imm1 : Word) (s : State) : Result := printSlot .u32 .u32 imm1 s

/-- PRINT_F32 (R107): the payload's bits pass unchanged, NaN payloads included. -/
def execPrintF32 (imm1 : Word) (s : State) : Result := printSlot .float .f32 imm1 s

/-- PRINT_I32 (R108). -/
def execPrintI32 (imm1 : Word) (s : State) : Result := printSlot .i32 .i32 imm1 s

end Sys2Proof.Machine
end

