-- ==== Sys2Proof/Machine/Dispatch.lean ====
section
/-! DEFINITION. Dispatch (R74): one arm per instruction; a field an instruction ignores (R59) does not reach its
meaning. -/

namespace Sys2Proof.Machine

def exec (i : Instr) (s : State) : Host.Outcome State Fault Refusal :=
  match i with
  -- 46_misc.md
  | .nop _ _ _ => Sys2Proof.Machine.execNop s
  | .halt _ _ _ => Sys2Proof.Machine.execHalt s
  -- 41_data_movement.md
  | .loadG opd imm1 _ => Sys2Proof.Machine.execLoadG opd imm1 s
  | .loadL opd imm1 _ => Sys2Proof.Machine.execLoadL opd imm1 s
  | .storeG opd imm1 _ => Sys2Proof.Machine.execStoreG opd imm1 s
  | .storeL opd imm1 _ => Sys2Proof.Machine.execStoreL opd imm1 s
  | .loadII32 opd imm1 _ => Sys2Proof.Machine.execLoadII32 opd imm1 s
  -- 42_arithmetic.md
  | .addI32 opd imm1 imm2 => Sys2Proof.Machine.execAddI32 opd imm1 imm2 s
  | .addU32 opd imm1 imm2 => Sys2Proof.Machine.execAddU32 opd imm1 imm2 s
  | .subI32 opd imm1 imm2 => Sys2Proof.Machine.execSubI32 opd imm1 imm2 s
  | .mulI32 opd imm1 imm2 => Sys2Proof.Machine.execMulI32 opd imm1 imm2 s
  | .divI32 opd imm1 imm2 => Sys2Proof.Machine.execDivI32 opd imm1 imm2 s
  -- 43_comparison.md
  | .cmpI32 _ imm1 imm2 => Sys2Proof.Machine.execCmpI32 imm1 imm2 s
  | .cmpU32 _ imm1 imm2 => Sys2Proof.Machine.execCmpU32 imm1 imm2 s
  -- 44_control_flow.md
  | .jmp _ imm1 _ => Sys2Proof.Machine.execJmp imm1 s
  | .jz _ imm1 _ => Sys2Proof.Machine.execJz imm1 s
  | .jnz _ imm1 _ => Sys2Proof.Machine.execJnz imm1 s
  -- 45_output.md
  | .printU32 _ imm1 _ => Sys2Proof.Machine.execPrintU32 imm1 s
  | .printF32 _ imm1 _ => Sys2Proof.Machine.execPrintF32 imm1 s
  | .printI32 _ imm1 _ => Sys2Proof.Machine.execPrintI32 imm1 s

end Sys2Proof.Machine
end

