-- ==== Sys2Proof/Machine/Fetch.lean ====
section
/-! DEFINITION. Fetching and decoding the instruction at `pc` (R68, R70 to R72), and placing one there. -/

namespace Sys2Proof.Machine

/-- What the fetch at `pc` finds. -/
inductive Fetched where
  /-- An instruction. -/
  | instr (i : Instr)
  /-- `pc + INSTR_SIZE > program_len` (R71). -/
  | overrun
  /-- An opcode byte that no mnemonic maps to (R74). -/
  | illegalOpcode
  /-- A byte that does not exist (R38), which needs `program_len > PROGRAM_MAX_SIZE`. -/
  | absentByte
deriving DecidableEq, Repr

/-- The range check on mathematical integers (R43, R71), before any byte is read; then the ten bytes at `pc` (R39),
decoded with the build's OPCODE_MAP and IMM_ENDIAN (R72). -/
def fetch (s : State) : Fetched :=
  if s.pc.toNat + instrSize ≤ s.programLen.toNat then
    match readProgramBytes instrSize s.pc.toNat s with
    | none => .absentByte
    | some bytes =>
      match decode s.params.opcodeMap s.params.immEndian bytes with
      | .ok i => .instr i
      | .error (.unassignedOpcode _) => .illegalOpcode
      | .error .truncated => .overrun
  else .overrun

/-- Where `State.withFetchWord` places an instruction: at `pc`, or at 0 where ten bytes at `pc` would not fit in program
memory (assumption 13). -/
def placeAt (s : State) : Word :=
  if s.pc.toNat + instrSize ≤ s.params.programMaxSize then s.pc else 0

/-- Ten bytes placed where the next step fetches them, inside the loaded program: the bytes, and `program_len` raised to
their end where it is lower (assumption 13). -/
def placeInstr (bytes : List Byte) (s : State) : State :=
  { s with
    program := s.program.writeBytes (placeAt s).toNat bytes
    programLen := BitVec.ofNat 32 (max s.programLen.toNat ((placeAt s).toNat + instrSize))
    pc := placeAt s }

end Sys2Proof.Machine
end

