-- ==== Sys2Proof/Machine/Step.lean ====
section
/-! DEFINITION. One STEP (R68): fetch, decode, dispatch, commit. -/

namespace Sys2Proof.Machine

/-- `step` (R68). Its status is the next state's `stepStatus`: the instruction's own, ERR_HALT included (R127). -/
def step (s : State) : Host.Outcome State Fault Refusal :=
  match fetch s with
  | .instr i => exec i s
  | .overrun => raise .errInvalidInstruction s
  | .illegalOpcode => raise .errInvalidOpcode s
  | .absentByte => .fault .absentProgramByte

/-- The state whose very next step runs the instruction given as a number (bit 0 the least significant bit of its first
byte). It stands for a LOAD of a program that holds it (R139; assumption 13). -/
def State.withFetchWord (s : State) (nbits w : Nat) : State := placeInstr (tableBytes nbits w) s

end Sys2Proof.Machine
end

