-- ==== Sys2Proof/Machine/Commands.lean ====
section
/-! DEFINITION. The host interface (R126): the five commands INIT, LOAD, STEP, RUN and INSPECT, served one at a time
(R129). -/

namespace Sys2Proof.Machine

/-- INIT, which RESET is too (R137, R138): every piece of state to its reset value. It emits no event, so the record of
what the port has carried stays (assumption 4). -/
def cmdInit (s : State) : State := { State.init s.params with output := s.output }

/-- LOAD of `len` bytes, `len` the length of `bytes` (R139, R140): program memory, `program_len` and `pc` only. -/
def cmdLoad (bytes : List Byte) (s : State) : Status × State :=
  if bytes.length ≤ s.params.programMaxSize then
    (.ok, { s with program := s.program.writeBytes 0 bytes, programLen := BitVec.ofNat 32 bytes.length, pc := 0 })
  else (.errProgramTooLarge, s)

/-- How a RUN of at most a given number of steps ends. -/
inductive RunEnd where
  /-- RUN returned a status (R132). -/
  | returned (st : Status)
  /-- The fuel ran out with every step OK: RUN goes on (R146). -/
  | outOfFuel
  /-- A step answered no state: no reachable state does so. -/
  | stopped
deriving DecidableEq, Repr

/-- RUN "maps `HALT` to a successful-termination status", which is OK (R132). -/
def mapHalt (st : Status) : Status := if st = .errHalt then .ok else st

/-- RUN (R132), for at most `fuel` steps: STEPs while they return OK, then the mapped status. -/
def run : Nat → State → RunEnd × State
  | 0, s => (.outOfFuel, s)
  | fuel + 1, s =>
    match step s with
    | .next t => if t.stepStatus = .ok then run fuel t else (.returned (mapHalt t.stepStatus), t)
    | .fault _ => (.stopped, s)
    | .refused _ => (.stopped, s)

/-- What INSPECT returns (R128): every register, every program byte, every slot as its tag code and payload (VOID's
shown as 0, R15), every buffer as its type code and element bytes. -/
structure Dump where
  pc : Word
  sp : Word
  flags : BitVec 8
  programLen : Word
  program : List Byte
  globals : List (Nat × Word)
  locals : List (Nat × Word)
  stackVars : List (Nat × Word)
  buffers : List (Nat × List Byte)
deriving DecidableEq, Repr

/-- A slot as INSPECT shows it. -/
def dumpValue (v : TypedValue) : Nat × Word := (v.tag.code, v.pay)

/-- The first `n` bytes of a memory. -/
def Memory.bytes (m : Memory) (n : Nat) : List Byte := (List.range n).map m.read

/-- INSPECT (R128). -/
def inspect (s : State) : Dump where
  pc := s.pc
  sp := s.sp
  flags := readFlags s
  programLen := s.programLen
  program := s.program.bytes s.params.programMaxSize
  globals := s.globals.map dumpValue
  locals := s.locals.map dumpValue
  stackVars := s.stackVars.map dumpValue
  buffers := s.buffers.map fun b => (b.bufferType.code, Memory.bytes b.elements bufferBytes)

/-- The commands of the host (R126). A RUN carries the fuel of assumption 12. -/
inductive Command where
  | init
  | load (bytes : List Byte)
  | step
  | run (fuel : Nat)
  | inspect
deriving DecidableEq, Repr

/-- What the block gives back (R130). -/
inductive Reply where
  | nothing
  | status (st : Status)
  | dump (d : Dump)
  /-- RUN has not returned within its fuel. -/
  | running
  /-- A step answered no state: no reachable state does so. -/
  | stopped
deriving DecidableEq, Repr

/-- The reply RUN's end stands for. -/
def RunEnd.reply : RunEnd → Reply
  | .returned st => .status st
  | .outOfFuel => .running
  | .stopped => .stopped

/-- The command has completed (R129). `running` says that a RUN has not. -/
def Reply.completed : Reply → Bool
  | .nothing => true
  | .status _ => true
  | .dump _ => true
  | .running => false
  | .stopped => false

/-- One command served, by a block that no RUN occupies (R126). -/
def serve (c : Command) (s : State) : Reply × State :=
  match c with
  | .init => (.nothing, cmdInit s)
  | .load bytes => (.status (cmdLoad bytes s).1, (cmdLoad bytes s).2)
  | .step =>
    match step s with
    | .next t => (.status t.stepStatus, t)
    | .fault _ => (.stopped, s)
    | .refused _ => (.stopped, s)
  | .run fuel => ((run fuel s).1.reply, (run fuel s).2)
  | .inspect => (.dump (inspect s), s)

/-- Commands served one after another, each only when the one before it has completed (R129): their replies, and the
state of the block. Behind a RUN that goes on no command is served; the state is the one the RUN has come to
(assumption 21). -/
def serveAll : List Command → State → List Reply × State
  | [], s => ([], s)
  | c :: cs, s =>
    if (serve c s).1.completed then
      ((serve c s).1 :: (serveAll cs (serve c s).2).1, (serveAll cs (serve c s).2).2)
    else ([(serve c s).1], (serve c s).2)

end Sys2Proof.Machine
end

