-- ==== Sys2Proof/Machine/Render.lean ====
section
/-! DEFINITION. The text of an output event (R105), which the sink makes of it. -/

namespace Sys2Proof.Machine

/-- A decimal digit. -/
def digitChar (d : Nat) : Char := Char.ofNat (48 + d % 10)

/-- The decimal digits of `n`, most significant first, for any fuel not below `n`'s digit count less one. -/
def digitsFuel : Nat → Nat → List Char
  | 0, n => [digitChar n]
  | fuel + 1, n => if n < 10 then [digitChar n] else digitsFuel fuel (n / 10) ++ [digitChar n]

/-- `n` in decimal, with no sign, no leading zeros and no padding. -/
def natText (n : Nat) : List Char := digitsFuel n n

/-- Exactly `k` decimal digits of `n`, leading zeros kept. -/
def paddedText : Nat → Nat → List Char
  | 0, _ => []
  | k + 1, n => paddedText k (n / 10) ++ [digitChar n]

/-- U32: `w` as an unsigned decimal (R105). -/
def textU32 (w : Word) : List Char := natText w.toNat

/-- I32: `as_i32(w)` as a signed decimal, a leading `-` when negative and no `+` (R105). -/
def textI32 (w : Word) : List Char :=
  if asI32 w < 0 then '-' :: natText (asI32 w).natAbs else natText (asI32 w).natAbs

/-- The sign bit of a binary32 word. -/
def f32Sign (w : Word) : Bool := w.getLsbD 31

/-- The biased exponent of a binary32 word. -/
def f32Exponent (w : Word) : Nat := (w.extractLsb' 23 8).toNat

/-- The fraction field of a binary32 word. -/
def f32Fraction (w : Word) : Nat := (w.extractLsb' 0 23).toNat

/-- Neither an infinity nor a NaN. -/
def f32Finite (w : Word) : Bool := f32Exponent w != 255

/-- The magnitude of a finite binary32 word is `f32Mantissa · 2 ^ f32Power / 2 ^ 149`: subnormal and normal words alike.
-/
def f32Mantissa (w : Word) : Nat := if f32Exponent w = 0 then f32Fraction w else 2 ^ 23 + f32Fraction w

/-- See `f32Mantissa`. -/
def f32Power (w : Word) : Nat := f32Exponent w - 1

/-- The magnitude of a finite binary32 word in units of 2^-149, an integer: binary64 holds it exactly (R105). -/
def f32Units (w : Word) : Nat := f32Mantissa w * 2 ^ f32Power w

/-- `n / d` rounded to nearest; an exact tie goes up where `tie` says so. -/
def roundNearest (n d : Nat) (tie : Bool) : Nat :=
  if d < 2 * (n % d) ∨ (2 * (n % d) = d ∧ tie = true) then n / d + 1 else n / d

/-- The magnitude in millionths, rounded to nearest; an exact tie goes as the free value says (assumption 11). -/
def f32Millionths (w : Word) : Nat := roundNearest (f32Units w * 10 ^ 6) (2 ^ 149) (Config.tieRoundsAway w)

/-- F32: C's `%f` (R105): a leading `-` if the sign bit is set, at least one integer digit, a `.`, six fraction digits.
The text of an infinity or a NaN is free (assumption 10). -/
def textF32 (w : Word) : List Char :=
  if f32Finite w then
    (if f32Sign w then ['-'] else []) ++ natText (f32Millionths w / 10 ^ 6) ++ ['.'] ++
      paddedText 6 (f32Millionths w % 10 ^ 6)
  else Config.nonFiniteText w

/-- The text of one event, `PRINT_SUFFIX` appended (R105). -/
def eventText (p : Params) (e : OutEvent) : List Char :=
  (match e.kind with
   | .u32 => textU32 e.word
   | .f32 => textF32 e.word
   | .i32 => textI32 e.word) ++ p.printSuffix

/-- The character stream of a run: the text of every event the port has carried, oldest first. -/
def outputText (s : State) : List Char := s.output.flatMap (eventText s.params)

end Sys2Proof.Machine
end

