-- ==== Sys2Proof/Safety.lean ====
section
/-! DEFINITION. The terms the claims use: the invariants of R36 and R142, what no instruction touches (R34), what a step
can see, and the shapes of an error. -/

namespace Sys2Proof.Machine

/-- Each bank is an array of its parameter's size (R17 to R19, R22). -/
abbrev BanksFit (s : State) : Prop :=
  s.globals.length = s.params.gVarsCount ∧ s.locals.length = s.params.stackLocalsCount ∧
  s.stackVars.length = s.params.stackVarCount ∧ s.buffers.length = s.params.gMembufCount

/-- Program memory is `PROGRAM_MAX_SIZE` bytes in canonical form, and `program_len ≤ PROGRAM_MAX_SIZE` (R24, R38). -/
abbrev ProgramFits (s : State) : Prop :=
  s.program.wf ∧ s.program.below s.params.programMaxSize ∧ s.programLen.toNat ≤ s.params.programMaxSize

/-- `flags[7:3] = 0`, and at most one of `flags[2:0]` is 1 (R36 d). -/
abbrev FlagsLegal (s : State) : Prop :=
  (∀ k, 3 ≤ k → s.flags.getLsbD k = false) ∧
  ¬ (s.flags.getLsbD 0 = true ∧ s.flags.getLsbD 1 = true) ∧
  ¬ (s.flags.getLsbD 0 = true ∧ s.flags.getLsbD 2 = true) ∧
  ¬ (s.flags.getLsbD 1 = true ∧ s.flags.getLsbD 2 = true)

/-- No buffer's type is anything but VOID, and its elements are zero (R22, R36 e). -/
abbrev BuffersVoid (s : State) : Prop := ∀ b ∈ s.buffers, b = ⟨.void, []⟩

/-- The invariants of R36 over a legal build (R4). R36 (a), every slot well formed, is the type of the slots. -/
structure State.Inv (s : State) : Prop where
  params : s.params.wf
  banks : BanksFit s
  program : ProgramFits s
  pc : s.pc.toNat ≤ s.programLen.toNat
  flags : FlagsLegal s
  buffers : BuffersVoid s

/-- Every slot of the three banks. -/
abbrev slots (s : State) : List TypedValue := s.globals ++ s.locals ++ s.stackVars

/-- Every slot is VOID or I32 (R142). -/
abbrev OnlyI32 (s : State) : Prop :=
  ∀ v ∈ slots s, v.tag = .void ∨ v.tag = .i32

/-- What no instruction touches (R34, last line): the build, program memory byte by byte, `program_len`, BUF and `sp`. -/
structure FrameBase (s t : State) : Prop where
  params : t.params = s.params
  program : ∀ a, t.program.read a = s.program.read a
  programLen : t.programLen = s.programLen
  buffers : t.buffers = s.buffers
  sp : t.sp = s.sp

/-- The instruction ends with the error `e` and changes nothing (R78): the next state is `s` but for the status
returned. -/
abbrev Raises (i : Instr) (s : State) (e : Status) : Prop := exec i s = .next { s with stepStatus := e }

/-- The instruction ends with OK, its writes are those of `t`, and `pc` takes the default successor (R73, R77). -/
abbrev Completes (i : Instr) (s t : State) : Prop := exec i s = .next { t with pc := s.pc + 10, stepStatus := .ok }

/-- The errors of an instruction with S indices `is` (R26, R81 phase 3): any of them outside the bank. -/
abbrev RaisesOnBadIndex (i : Instr) (s : State) (is : List Nat) : Prop :=
  (∃ k ∈ is, s.params.stackVarCount ≤ k) → Raises i s .errInvalidStackVarIdx

/-- The type error of an instruction with S sources `srcs` of tag `T` and S indices `is` (R75 phase 2, R81 phase 4):
every index is in the bank and a source has another tag. -/
abbrev RaisesOnBadTag (i : Instr) (s : State) (is srcs : List Nat) (T : Tag) : Prop :=
  (∀ k ∈ is, k < s.params.stackVarCount) → (∃ k ∈ srcs, ∃ v, s.stackVars[k]? = some v ∧ v.tag ≠ T) →
    Raises i s .errTypeMismatch

/-- The ten bytes at `pc` (R39, R41). -/
def bytesAtPc (s : State) : List Byte := (List.range instrSize).map fun k => s.program.read (s.pc.toNat + k)

/-- The ten bytes at `pc` lie in the loaded program (R43). -/
abbrev InProgram (s : State) : Prop := s.pc.toNat + instrSize ≤ s.programLen.toNat

/-- The instruction at `pc` is `i` (R68, R72). -/
abbrev Fetches (s : State) (i : Instr) : Prop :=
  InProgram s ∧ decode s.params.opcodeMap s.params.immEndian (bytesAtPc s) = .ok i

/-- The two states agree on everything a step may read: all but `sp`, BUF, LESS, GREATER, the program bytes at and
beyond `program_len`, and the record of what has been sent out (R25, R31, R32, R34, R44). -/
structure SeenAlike (s t : State) : Prop where
  params : s.params = t.params
  program : ∀ a, a < s.programLen.toNat → s.program.read a = t.program.read a
  programLen : s.programLen = t.programLen
  pc : s.pc = t.pc
  globals : s.globals = t.globals
  locals : s.locals = t.locals
  stackVars : s.stackVars = t.stackVars
  zero : zeroFlag s = zeroFlag t

/-- `t` is reached from `s` by `n` steps, every one of them with status OK. -/
def okSteps : Nat → State → State → Prop
  | 0, s, t => t = s
  | n + 1, s, t => ∃ u, step s = .next u ∧ u.stepStatus = .ok ∧ okSteps n u t

/-- The number decimal digits stand for. -/
def decimalValue (ds : List Char) : Nat := ds.foldl (fun n c => 10 * n + (c.toNat - 48)) 0

/-- Decimal digits with no sign, no padding and no leading zero (R105). -/
def plainDecimal (ds : List Char) : Prop :=
  ds ≠ [] ∧ (∀ c ∈ ds, c.isDigit = true) ∧ (ds.head? = some '0' → ds = ['0'])

/-- No command of the sequence meets a fault: the runs that stay within what the spec describes. -/
def safeRun (cs : List Command) (s : State) : Prop := Reply.stopped ∉ (serveAll cs s).1

end Sys2Proof.Machine
end

