-- ==== Sys2Proof/Certificates/Slice0/Obligations.lean ====
section
/-! DEFINITION. The statements for the provers. Each docstring names the rule of spec/ it formalises. -/

open Sys2Proof Sys2Proof.Machine

/-! ## Encoding and the step -/

/-- R68, R72: when the ten bytes at `pc` decode to `i`, STEP is the execution of `i`; nothing is added around it (`exec`
itself commits `pc`). -/
def Obligations.StepRunsDecodedInstruction : Prop :=
  ∀ s i, ProgramFits s → Fetches s i → step s = exec i s

/-- R71: fetch overrun. -/
def Obligations.StepReportsFetchOverrun : Prop :=
  ∀ s : State, s.programLen.toNat < s.pc.toNat + 10 → step s = .next { s with stepStatus := .errInvalidInstruction }

/-- R74: the opcode byte at `pc` is none of the 20 the map assigns. -/
def Obligations.StepReportsUnassignedOpcode : Prop :=
  ∀ s, ProgramFits s → InProgram s → s.params.opcodeMap.assigns (s.program.read s.pc.toNat) = false →
    step s = .next { s with stepStatus := .errInvalidOpcode }

/-- R64, for every injective OPCODE_MAP, both byte orders and every instruction: the ten bytes of `enc`, and decoding
gives back the instruction. -/
def Obligations.DecodeEncodeRoundTrip : Prop :=
  ∀ (m : OpcodeMap) (op : Opcode) (o : Byte) (a b : Word), m.wf →
    encode m .little (Instr.make op o a b) =
      [m.byteOf op, o, a.extractLsb 7 0, a.extractLsb 15 8, a.extractLsb 23 16, a.extractLsb 31 24,
        b.extractLsb 7 0, b.extractLsb 15 8, b.extractLsb 23 16, b.extractLsb 31 24] ∧
    encode m .big (Instr.make op o a b) =
      [m.byteOf op, o, a.extractLsb 31 24, a.extractLsb 23 16, a.extractLsb 15 8, a.extractLsb 7 0,
        b.extractLsb 31 24, b.extractLsb 23 16, b.extractLsb 15 8, b.extractLsb 7 0] ∧
    ∀ (e : Endian) (i : Instr), decode m e (encode m e i) = .ok i

/-- R55 to R57, R62: every ten bytes that decode are the encoding of what they decode to, so no byte is dropped. -/
def Obligations.EncodeDecodeRoundTrip : Prop :=
  ∀ (m : OpcodeMap) (e : Endian) (bytes : List Byte) (i : Instr),
    bytes.length = 10 → decode m e bytes = .ok i → encode m e i = bytes

/-- R61, R63: over ten bytes, decoding rejects exactly the opcode bytes the map does not assign, whatever the other nine
bytes; under the default map they are the 236 values R61 lists. -/
def Obligations.UnassignedOpcodesAreRejected : Prop :=
  (∀ (m : OpcodeMap) (e : Endian) (b : Byte) (rest : List Byte), rest.length = 9 →
    ((∃ r, decode m e (b :: rest) = .error r) ↔ m.assigns b = false)) ∧
  (∀ b : Byte, OpcodeMap.default.assigns b = false ↔
    (0x02 ≤ b.toNat ∧ b.toNat ≤ 0x0F) ∨ (0x15 ≤ b.toNat ∧ b.toNat ≤ 0x1F) ∨ (0x25 ≤ b.toNat ∧ b.toNat ≤ 0x2F) ∨
    (0x32 ≤ b.toNat ∧ b.toNat ≤ 0x3F) ∨ (0x43 ≤ b.toNat ∧ b.toNat ≤ 0x4F) ∨ (0x53 ≤ b.toNat ∧ b.toNat ≤ 0xFF)) ∧
  ((List.range 256).filter fun n => !OpcodeMap.default.assigns (BitVec.ofNat 8 n)).length = 236

/-- R60's default map, row by row: the instruction's bytes begin with its row's value, and ten bytes that begin with it
are that instruction. R65: the worked encodings, both ways. -/
def Obligations.WorkedEncodings : Prop :=
  (∀ row ∈ [(Opcode.nop, Instr.nop, (0x00 : Byte)), (.halt, .halt, 0x01), (.loadG, .loadG, 0x10),
      (.loadL, .loadL, 0x11), (.storeG, .storeG, 0x12), (.storeL, .storeL, 0x13), (.loadII32, .loadII32, 0x14),
      (.addI32, .addI32, 0x20), (.addU32, .addU32, 0x21), (.subI32, .subI32, 0x22), (.mulI32, .mulI32, 0x23),
      (.divI32, .divI32, 0x24), (.cmpI32, .cmpI32, 0x30), (.cmpU32, .cmpU32, 0x31), (.jmp, .jmp, 0x40),
      (.jz, .jz, 0x41), (.jnz, .jnz, 0x42), (.printU32, .printU32, 0x50), (.printF32, .printF32, 0x51),
      (.printI32, .printI32, 0x52)],
    OpcodeMap.default.byteOf row.1 = row.2.2 ∧
    ∀ (e : Endian) (o a0 a1 a2 a3 b0 b1 b2 b3 : Byte) (a b : Word),
      (encode .default e (row.2.1 o a b)).head? = some row.2.2 ∧
      decode .default e [row.2.2, o, a0, a1, a2, a3, b0, b1, b2, b3] =
        .ok (row.2.1 o (wordOfBytes e a0 a1 a2 a3) (wordOfBytes e b0 b1 b2 b3))) ∧
  encode .default .little (.loadII32 0 5 0) = [0x14, 0x00, 0x05, 0x00, 0x00, 0x00, 0x00, 0x00, 0x00, 0x00] ∧
  encode .default .little (.jmp 0 50 0) = [0x40, 0x00, 0x32, 0x00, 0x00, 0x00, 0x00, 0x00, 0x00, 0x00] ∧
  encode .default .little (.addI32 2 0 1) = [0x20, 0x02, 0x00, 0x00, 0x00, 0x00, 0x01, 0x00, 0x00, 0x00] ∧
  encode .default .big (.addI32 2 0 1) = [0x20, 0x02, 0x00, 0x00, 0x00, 0x00, 0x00, 0x00, 0x00, 0x01] ∧
  decode .default .little [0x14, 0x00, 0x05, 0x00, 0x00, 0x00, 0x00, 0x00, 0x00, 0x00] = .ok (.loadII32 0 5 0) ∧
  decode .default .little [0x40, 0x00, 0x32, 0x00, 0x00, 0x00, 0x00, 0x00, 0x00, 0x00] = .ok (.jmp 0 50 0) ∧
  decode .default .little [0x20, 0x02, 0x00, 0x00, 0x00, 0x00, 0x01, 0x00, 0x00, 0x00] = .ok (.addI32 2 0 1) ∧
  decode .default .big [0x20, 0x02, 0x00, 0x00, 0x00, 0x00, 0x00, 0x00, 0x00, 0x01] = .ok (.addI32 2 0 1)

/-- R59, R62: a field an opcode does not use has no effect. -/
def Obligations.IgnoredFieldsHaveNoEffect : Prop :=
  ∀ (s : State) (o o' : Byte) (a a' b b' : Word),
    (∀ mk ∈ [Instr.nop, Instr.halt], exec (mk o a b) s = exec (mk o' a' b') s) ∧
    (∀ mk ∈ [Instr.loadG, Instr.loadL, Instr.storeG, Instr.storeL, Instr.loadII32],
      exec (mk o a b) s = exec (mk o a b') s) ∧
    (∀ mk ∈ [Instr.cmpI32, Instr.cmpU32], exec (mk o a b) s = exec (mk o' a b) s) ∧
    (∀ mk ∈ [Instr.jmp, Instr.jz, Instr.jnz, Instr.printU32, Instr.printF32, Instr.printI32],
      exec (mk o a b) s = exec (mk o' a b') s)

/-- R58: of a masked index only bits 7:0 count. -/
def Obligations.MaskedIndexBitsAreIgnored : Prop :=
  ∀ (s : State) (o : Byte) (a a' b b' : Word), a.toNat % 256 = a'.toNat % 256 → b.toNat % 256 = b'.toNat % 256 →
    (∀ mk ∈ [Instr.addI32, Instr.addU32, Instr.subI32, Instr.mulI32, Instr.divI32, Instr.cmpI32, Instr.cmpU32],
      exec (mk o a b) s = exec (mk o a' b') s) ∧
    (∀ mk ∈ [Instr.printU32, Instr.printF32, Instr.printI32], exec (mk o a b) s = exec (mk o a' b) s)

/-! ## Data movement -/

/-- R82. -/
def Obligations.LoadGCopiesTheGlobal : Prop :=
  ∀ (s : State) (opd : Byte) (imm1 imm2 : Word), BanksFit s →
    (imm1.toNat < s.params.gVarsCount → opd.toNat < s.params.stackVarCount →
      ∃ v, s.globals[imm1.toNat]? = some v ∧
        Completes (.loadG opd imm1 imm2) s { s with stackVars := s.stackVars.set opd.toNat v }) ∧
    (s.params.gVarsCount ≤ imm1.toNat → Raises (.loadG opd imm1 imm2) s .errInvalidGlobalIdx) ∧
    (imm1.toNat < s.params.gVarsCount → s.params.stackVarCount ≤ opd.toNat →
      Raises (.loadG opd imm1 imm2) s .errInvalidStackVarIdx) ∧
    ∀ m e, (encode m e (.loadG opd imm1 imm2)).head? = some m.loadG

/-- R83. -/
def Obligations.LoadLCopiesTheLocal : Prop :=
  ∀ (s : State) (opd : Byte) (imm1 imm2 : Word), BanksFit s →
    (imm1.toNat < s.params.stackLocalsCount → opd.toNat < s.params.stackVarCount →
      ∃ v, s.locals[imm1.toNat]? = some v ∧
        Completes (.loadL opd imm1 imm2) s { s with stackVars := s.stackVars.set opd.toNat v }) ∧
    (s.params.stackLocalsCount ≤ imm1.toNat → Raises (.loadL opd imm1 imm2) s .errInvalidLocalIdx) ∧
    (imm1.toNat < s.params.stackLocalsCount → s.params.stackVarCount ≤ opd.toNat →
      Raises (.loadL opd imm1 imm2) s .errInvalidStackVarIdx) ∧
    ∀ m e, (encode m e (.loadL opd imm1 imm2)).head? = some m.loadL

/-- R84, with the order of its two errors (R81). Its round-trip property is `LoadGThenStoreGRoundTrips`. -/
def Obligations.StoreGCopiesTheStackVar : Prop :=
  ∀ (s : State) (opd : Byte) (imm1 imm2 : Word), BanksFit s →
    (opd.toNat < s.params.stackVarCount → imm1.toNat < s.params.gVarsCount →
      ∃ v, s.stackVars[opd.toNat]? = some v ∧
        Completes (.storeG opd imm1 imm2) s { s with globals := s.globals.set imm1.toNat v }) ∧
    (s.params.stackVarCount ≤ opd.toNat → Raises (.storeG opd imm1 imm2) s .errInvalidStackVarIdx) ∧
    (opd.toNat < s.params.stackVarCount → s.params.gVarsCount ≤ imm1.toNat →
      Raises (.storeG opd imm1 imm2) s .errInvalidGlobalIdx) ∧
    ∀ m e, (encode m e (.storeG opd imm1 imm2)).head? = some m.storeG

/-- R85, with the order of its two errors (R81). -/
def Obligations.StoreLCopiesTheStackVar : Prop :=
  ∀ (s : State) (opd : Byte) (imm1 imm2 : Word), BanksFit s →
    (opd.toNat < s.params.stackVarCount → imm1.toNat < s.params.stackLocalsCount →
      ∃ v, s.stackVars[opd.toNat]? = some v ∧
        Completes (.storeL opd imm1 imm2) s { s with locals := s.locals.set imm1.toNat v }) ∧
    (s.params.stackVarCount ≤ opd.toNat → Raises (.storeL opd imm1 imm2) s .errInvalidStackVarIdx) ∧
    (opd.toNat < s.params.stackVarCount → s.params.stackLocalsCount ≤ imm1.toNat →
      Raises (.storeL opd imm1 imm2) s .errInvalidLocalIdx) ∧
    ∀ m e, (encode m e (.storeL opd imm1 imm2)).head? = some m.storeL

/-- R86: the slot's earlier value takes no part; every word is a legal literal; only LOAD_I_I32 makes a value that is
not VOID out of a state where every slot is VOID. -/
def Obligations.LoadImmediateSetsI32 : Prop :=
  ∀ (s : State) (opd : Byte) (imm1 imm2 : Word), BanksFit s →
    (opd.toNat < s.params.stackVarCount →
      Completes (.loadII32 opd imm1 imm2) s { s with stackVars := s.stackVars.set opd.toNat (.i32 imm1) }) ∧
    (s.params.stackVarCount ≤ opd.toNat → Raises (.loadII32 opd imm1 imm2) s .errInvalidStackVarIdx) ∧
    ((∀ v ∈ slots s, v = .void) → ∀ i t, exec i s = .next t → (∃ v ∈ slots t, v ≠ .void) →
      ∃ o a b, i = .loadII32 o a b) ∧
    ∀ m e, (encode m e (.loadII32 opd imm1 imm2)).head? = some m.loadII32

/-- R84's round trip, which the spec marks as derived from R82 and R84: LOAD_G then STORE_G with the same indices leaves the whole bank G as it was, and the slot holds
the global, tag and payload. -/
def Obligations.LoadGThenStoreGRoundTrips : Prop :=
  ∀ (s : State) (opd : Byte) (imm1 imm2 imm2' : Word), BanksFit s →
    imm1.toNat < s.params.gVarsCount → opd.toNat < s.params.stackVarCount →
    ∃ t u, exec (.loadG opd imm1 imm2) s = .next t ∧ exec (.storeG opd imm1 imm2') t = .next u ∧
      t.stepStatus = .ok ∧ u.stepStatus = .ok ∧ u.globals = s.globals ∧
      u.stackVars[opd.toNat]? = s.globals[imm1.toNat]? ∧ u.pc = s.pc + 20

/-! ## Arithmetic -/

/-- R88. -/
def Obligations.AddI32AddsSigned : Prop :=
  ∀ (s : State) (opd : Byte) (imm1 imm2 : Word), BanksFit s →
    (∀ x y, s.stackVars[imm1.toNat % 256]? = some (.i32 x) → s.stackVars[imm2.toNat % 256]? = some (.i32 y) →
      opd.toNat < s.params.stackVarCount →
      ∃ r : Word, r.toInt = (x.toInt + y.toInt).bmod (2 ^ 32) ∧ r.toNat = (x.toNat + y.toNat) % 2 ^ 32 ∧
        Completes (.addI32 opd imm1 imm2) s { s with stackVars := s.stackVars.set opd.toNat (.i32 r) }) ∧
    RaisesOnBadIndex (.addI32 opd imm1 imm2) s [imm1.toNat % 256, imm2.toNat % 256, opd.toNat] ∧
    RaisesOnBadTag (.addI32 opd imm1 imm2) s [imm1.toNat % 256, imm2.toNat % 256, opd.toNat]
      [imm1.toNat % 256, imm2.toNat % 256] .i32 ∧
    ∀ m e, (encode m e (.addI32 opd imm1 imm2)).head? = some m.addI32

/-- R89. -/
def Obligations.AddU32AddsModulo : Prop :=
  ∀ (s : State) (opd : Byte) (imm1 imm2 : Word), BanksFit s →
    (∀ x y, s.stackVars[imm1.toNat % 256]? = some (.u32 x) → s.stackVars[imm2.toNat % 256]? = some (.u32 y) →
      opd.toNat < s.params.stackVarCount →
      ∃ r : Word, r.toNat = (x.toNat + y.toNat) % 2 ^ 32 ∧
        Completes (.addU32 opd imm1 imm2) s { s with stackVars := s.stackVars.set opd.toNat (.u32 r) }) ∧
    RaisesOnBadIndex (.addU32 opd imm1 imm2) s [imm1.toNat % 256, imm2.toNat % 256, opd.toNat] ∧
    RaisesOnBadTag (.addU32 opd imm1 imm2) s [imm1.toNat % 256, imm2.toNat % 256, opd.toNat]
      [imm1.toNat % 256, imm2.toNat % 256] .u32 ∧
    ∀ m e, (encode m e (.addU32 opd imm1 imm2)).head? = some m.addU32

/-- R90. -/
def Obligations.SubI32Subtracts : Prop :=
  ∀ (s : State) (opd : Byte) (imm1 imm2 : Word), BanksFit s →
    (∀ x y, s.stackVars[imm1.toNat % 256]? = some (.i32 x) → s.stackVars[imm2.toNat % 256]? = some (.i32 y) →
      opd.toNat < s.params.stackVarCount →
      ∃ r : Word, r.toInt = (x.toInt - y.toInt).bmod (2 ^ 32) ∧
        Completes (.subI32 opd imm1 imm2) s { s with stackVars := s.stackVars.set opd.toNat (.i32 r) }) ∧
    RaisesOnBadIndex (.subI32 opd imm1 imm2) s [imm1.toNat % 256, imm2.toNat % 256, opd.toNat] ∧
    RaisesOnBadTag (.subI32 opd imm1 imm2) s [imm1.toNat % 256, imm2.toNat % 256, opd.toNat]
      [imm1.toNat % 256, imm2.toNat % 256] .i32 ∧
    ∀ m e, (encode m e (.subI32 opd imm1 imm2)).head? = some m.subI32

/-- R91: the low half of the exact product. -/
def Obligations.MulI32MultipliesLowHalf : Prop :=
  ∀ (s : State) (opd : Byte) (imm1 imm2 : Word), BanksFit s →
    (∀ x y, s.stackVars[imm1.toNat % 256]? = some (.i32 x) → s.stackVars[imm2.toNat % 256]? = some (.i32 y) →
      opd.toNat < s.params.stackVarCount →
      ∃ r : Word, r.toInt = (x.toInt * y.toInt).bmod (2 ^ 32) ∧ r.toNat = (x.toNat * y.toNat) % 2 ^ 32 ∧
        Completes (.mulI32 opd imm1 imm2) s { s with stackVars := s.stackVars.set opd.toNat (.i32 r) }) ∧
    RaisesOnBadIndex (.mulI32 opd imm1 imm2) s [imm1.toNat % 256, imm2.toNat % 256, opd.toNat] ∧
    RaisesOnBadTag (.mulI32 opd imm1 imm2) s [imm1.toNat % 256, imm2.toNat % 256, opd.toNat]
      [imm1.toNat % 256, imm2.toNat % 256] .i32 ∧
    ∀ m e, (encode m e (.mulI32 opd imm1 imm2)).head? = some m.mulI32

/-- R92: the quotient rounded toward zero, given by what it is (the remainder is smaller than the divisor and has the
dividend's sign); INT32_MIN / -1 gives the build's DIV_OVF_RESULT, whatever it is; the zero divisor is checked last. -/
def Obligations.DivI32TruncatesAndChecksZero : Prop :=
  ∀ (s : State) (opd : Byte) (imm1 imm2 : Word), BanksFit s →
    (∀ x y, s.stackVars[imm1.toNat % 256]? = some (.i32 x) → s.stackVars[imm2.toNat % 256]? = some (.i32 y) →
      opd.toNat < s.params.stackVarCount →
      (y.toInt = 0 → Raises (.divI32 opd imm1 imm2) s .errDivByZero) ∧
      (y.toInt ≠ 0 → ∃ r : Word,
        (x.toInt = -2 ^ 31 ∧ y.toInt = -1 → r = s.params.divOvfResult) ∧
        (¬ (x.toInt = -2 ^ 31 ∧ y.toInt = -1) → ∃ rem : Int, x.toInt = r.toInt * y.toInt + rem ∧
          rem.natAbs < y.toInt.natAbs ∧ (0 ≤ x.toInt → 0 ≤ rem) ∧ (x.toInt ≤ 0 → rem ≤ 0)) ∧
        Completes (.divI32 opd imm1 imm2) s { s with stackVars := s.stackVars.set opd.toNat (.i32 r) })) ∧
    RaisesOnBadIndex (.divI32 opd imm1 imm2) s [imm1.toNat % 256, imm2.toNat % 256, opd.toNat] ∧
    RaisesOnBadTag (.divI32 opd imm1 imm2) s [imm1.toNat % 256, imm2.toNat % 256, opd.toNat]
      [imm1.toNat % 256, imm2.toNat % 256] .i32 ∧
    ∀ m e, (encode m e (.divI32 opd imm1 imm2)).head? = some m.divI32

/-- R16, R87: no arithmetic, comparison or print opcode accepts VOID as a source. -/
def Obligations.VoidIsRejectedByEveryConsumer : Prop :=
  ∀ (s : State) (opd : Byte) (imm1 imm2 : Word), BanksFit s →
    imm1.toNat % 256 < s.params.stackVarCount →
    (imm2.toNat % 256 < s.params.stackVarCount → opd.toNat < s.params.stackVarCount →
      s.stackVars[imm1.toNat % 256]? = some .void ∨ s.stackVars[imm2.toNat % 256]? = some .void →
      ∀ mk ∈ [Instr.addI32, Instr.addU32, Instr.subI32, Instr.mulI32, Instr.divI32, Instr.cmpI32, Instr.cmpU32],
        Raises (mk opd imm1 imm2) s .errTypeMismatch) ∧
    (s.stackVars[imm1.toNat % 256]? = some .void →
      ∀ mk ∈ [Instr.printU32, Instr.printF32, Instr.printI32], Raises (mk opd imm1 imm2) s .errTypeMismatch)

/-- R76: the destination's earlier tag and payload never affect the result: whatever `S[opd]` held, a step that returns
OK ends in the same state. (An arithmetic source that is the destination slot itself is read as a source, R87.) -/
def Obligations.DestinationsOldValueIsIrrelevant : Prop :=
  ∀ (s t : State) (opd : Byte) (imm1 imm2 : Word) (v : TypedValue), t.stepStatus = .ok →
    (∀ mk ∈ [Instr.loadG, Instr.loadL, Instr.loadII32], exec (mk opd imm1 imm2) s = .next t →
      exec (mk opd imm1 imm2) { s with stackVars := s.stackVars.set opd.toNat v } = .next t) ∧
    (imm1.toNat % 256 ≠ opd.toNat → imm2.toNat % 256 ≠ opd.toNat →
      ∀ mk ∈ [Instr.addI32, Instr.addU32, Instr.subI32, Instr.mulI32, Instr.divI32],
        exec (mk opd imm1 imm2) s = .next t →
        exec (mk opd imm1 imm2) { s with stackVars := s.stackVars.set opd.toNat v } = .next t)

/-! ## Comparison -/

/-- R97. -/
def Obligations.CmpI32ComparesSigned : Prop :=
  ∀ (s : State) (opd : Byte) (imm1 imm2 : Word), BanksFit s →
    (∀ x y, s.stackVars[imm1.toNat % 256]? = some (.i32 x) → s.stackVars[imm2.toNat % 256]? = some (.i32 y) →
      ∃ f : BitVec 8, (f.getLsbD 0 = true ↔ x.toInt = y.toInt) ∧ (f.getLsbD 1 = true ↔ x.toInt < y.toInt) ∧
        (f.getLsbD 2 = true ↔ y.toInt < x.toInt) ∧ (∀ k, 3 ≤ k → f.getLsbD k = false) ∧
        Completes (.cmpI32 opd imm1 imm2) s { s with flags := f }) ∧
    RaisesOnBadIndex (.cmpI32 opd imm1 imm2) s [imm1.toNat % 256, imm2.toNat % 256] ∧
    RaisesOnBadTag (.cmpI32 opd imm1 imm2) s [imm1.toNat % 256, imm2.toNat % 256]
      [imm1.toNat % 256, imm2.toNat % 256] .i32 ∧
    ∀ m e, (encode m e (.cmpI32 opd imm1 imm2)).head? = some m.cmpI32

/-- R98. -/
def Obligations.CmpU32ComparesUnsigned : Prop :=
  ∀ (s : State) (opd : Byte) (imm1 imm2 : Word), BanksFit s →
    (∀ x y, s.stackVars[imm1.toNat % 256]? = some (.u32 x) → s.stackVars[imm2.toNat % 256]? = some (.u32 y) →
      ∃ f : BitVec 8, (f.getLsbD 0 = true ↔ x.toNat = y.toNat) ∧ (f.getLsbD 1 = true ↔ x.toNat < y.toNat) ∧
        (f.getLsbD 2 = true ↔ y.toNat < x.toNat) ∧ (∀ k, 3 ≤ k → f.getLsbD k = false) ∧
        Completes (.cmpU32 opd imm1 imm2) s { s with flags := f }) ∧
    RaisesOnBadIndex (.cmpU32 opd imm1 imm2) s [imm1.toNat % 256, imm2.toNat % 256] ∧
    RaisesOnBadTag (.cmpU32 opd imm1 imm2) s [imm1.toNat % 256, imm2.toNat % 256]
      [imm1.toNat % 256, imm2.toNat % 256] .u32 ∧
    ∀ m e, (encode m e (.cmpU32 opd imm1 imm2)).head? = some m.cmpU32

/-- R96: after a valid comparison exactly one of ZERO, LESS and GREATER is 1 and bits 7:3 are 0; the flags before have
no effect on it; the same comparison again gives the same flags (the sentence the spec marks as derived from R95); no
slot is written. -/
def Obligations.ComparisonRewritesAllFlags : Prop :=
  ∀ (s t : State) (opd : Byte) (imm1 imm2 : Word), ∀ mk ∈ [Instr.cmpI32, Instr.cmpU32],
    exec (mk opd imm1 imm2) s = .next t → t.stepStatus = .ok →
    (t.flags = 0b001 ∨ t.flags = 0b010 ∨ t.flags = 0b100) ∧
    (∀ f, exec (mk opd imm1 imm2) { s with flags := f } = .next t) ∧
    (∃ u, exec (mk opd imm1 imm2) t = .next u ∧ u.stepStatus = .ok ∧ u.flags = t.flags) ∧
    t.stackVars = s.stackVars

/-! ## Control flow -/

/-- R100: the absolute target, any alignment, below `program_len`. -/
def Obligations.JmpGoesToItsTarget : Prop :=
  ∀ (s : State) (opd : Byte) (imm1 imm2 : Word),
    (imm1.toNat < s.programLen.toNat →
      exec (.jmp opd imm1 imm2) s = .next { s with pc := imm1, stepStatus := .ok }) ∧
    (s.programLen.toNat ≤ imm1.toNat → Raises (.jmp opd imm1 imm2) s .errInvalidPc) ∧
    ∀ m e, (encode m e (.jmp opd imm1 imm2)).head? = some m.jmp

/-- R101: ZERO is bit 0 (R25); the target is checked only when the jump is taken. -/
def Obligations.JzJumpsOnZero : Prop :=
  ∀ (s : State) (opd : Byte) (imm1 imm2 : Word),
    (s.flags.getLsbD 0 = true → imm1.toNat < s.programLen.toNat →
      exec (.jz opd imm1 imm2) s = .next { s with pc := imm1, stepStatus := .ok }) ∧
    (s.flags.getLsbD 0 = true → s.programLen.toNat ≤ imm1.toNat → Raises (.jz opd imm1 imm2) s .errInvalidPc) ∧
    (s.flags.getLsbD 0 = false → Completes (.jz opd imm1 imm2) s s) ∧
    ∀ m e, (encode m e (.jz opd imm1 imm2)).head? = some m.jz

/-- R102. -/
def Obligations.JnzJumpsOnNotZero : Prop :=
  ∀ (s : State) (opd : Byte) (imm1 imm2 : Word),
    (s.flags.getLsbD 0 = false → imm1.toNat < s.programLen.toNat →
      exec (.jnz opd imm1 imm2) s = .next { s with pc := imm1, stepStatus := .ok }) ∧
    (s.flags.getLsbD 0 = false → s.programLen.toNat ≤ imm1.toNat → Raises (.jnz opd imm1 imm2) s .errInvalidPc) ∧
    (s.flags.getLsbD 0 = true → Completes (.jnz opd imm1 imm2) s s) ∧
    ∀ m e, (encode m e (.jnz opd imm1 imm2)).head? = some m.jnz

/-! ## Output -/

/-- R106, with its example's text (R105). -/
def Obligations.PrintU32EmitsItsEvent : Prop :=
  ∀ (s : State) (opd : Byte) (imm1 imm2 : Word), BanksFit s →
    (∀ w, s.stackVars[imm1.toNat % 256]? = some (.u32 w) →
      Completes (.printU32 opd imm1 imm2) s { s with output := s.output ++ [⟨.u32, w⟩] }) ∧
    RaisesOnBadIndex (.printU32 opd imm1 imm2) s [imm1.toNat % 256] ∧
    RaisesOnBadTag (.printU32 opd imm1 imm2) s [imm1.toNat % 256] [imm1.toNat % 256] .u32 ∧
    textU32 7 = ['7'] ∧
    ∀ m e, (encode m e (.printU32 opd imm1 imm2)).head? = some m.printU32

/-- R107: the payload's bits are passed unchanged; with its example's text (R105). -/
def Obligations.PrintF32EmitsItsEvent : Prop :=
  ∀ (s : State) (opd : Byte) (imm1 imm2 : Word), BanksFit s →
    (∀ w, s.stackVars[imm1.toNat % 256]? = some (.float w) →
      Completes (.printF32 opd imm1 imm2) s { s with output := s.output ++ [⟨.f32, w⟩] }) ∧
    RaisesOnBadIndex (.printF32 opd imm1 imm2) s [imm1.toNat % 256] ∧
    RaisesOnBadTag (.printF32 opd imm1 imm2) s [imm1.toNat % 256] [imm1.toNat % 256] .float ∧
    textF32 0x3F800000 = ['1', '.', '0', '0', '0', '0', '0', '0'] ∧
    ∀ m e, (encode m e (.printF32 opd imm1 imm2)).head? = some m.printF32

/-- R108, with the texts of its corner case and its example (R105). -/
def Obligations.PrintI32EmitsItsEvent : Prop :=
  ∀ (s : State) (opd : Byte) (imm1 imm2 : Word), BanksFit s →
    (∀ w, s.stackVars[imm1.toNat % 256]? = some (.i32 w) →
      Completes (.printI32 opd imm1 imm2) s { s with output := s.output ++ [⟨.i32, w⟩] }) ∧
    RaisesOnBadIndex (.printI32 opd imm1 imm2) s [imm1.toNat % 256] ∧
    RaisesOnBadTag (.printI32 opd imm1 imm2) s [imm1.toNat % 256] [imm1.toNat % 256] .i32 ∧
    textI32 0xFFFFFFFF = ['-', '1'] ∧ textI32 5 = ['5'] ∧
    ∀ m e, (encode m e (.printI32 opd imm1 imm2)).head? = some m.printI32

/-- R105, U32: the text of a U32 event is its value in decimal, with no sign, no leading zeros and no padding, then
PRINT_SUFFIX; it follows the text of the events before it. -/
def Obligations.UnsignedTextIsTheDecimalValue : Prop :=
  ∀ w : Word, plainDecimal (textU32 w) ∧ decimalValue (textU32 w) = w.toNat ∧
    (∀ p : Params, eventText p ⟨.u32, w⟩ = textU32 w ++ p.printSuffix) ∧
    ∀ s : State, outputText { s with output := s.output ++ [⟨.u32, w⟩] } =
      outputText s ++ textU32 w ++ s.params.printSuffix

/-- R105, I32: the text of an I32 event is a leading `-` when negative, no `+`, then the magnitude in decimal, then
PRINT_SUFFIX; it follows the text of the events before it. -/
def Obligations.SignedTextIsTheDecimalValue : Prop :=
  ∀ w : Word, ∃ ds, plainDecimal ds ∧
    (0 ≤ w.toInt → textI32 w = ds ∧ (decimalValue ds : Int) = w.toInt) ∧
    (w.toInt < 0 → textI32 w = '-' :: ds ∧ -(decimalValue ds : Int) = w.toInt) ∧
    (∀ p : Params, eventText p ⟨.i32, w⟩ = textI32 w ++ p.printSuffix) ∧
    ∀ s : State, outputText { s with output := s.output ++ [⟨.i32, w⟩] } =
      outputText s ++ textI32 w ++ s.params.printSuffix

/-- R105, F32: the text of an F32 event is the text of its word, then PRINT_SUFFIX; it follows the text of the events
before it. The text of a finite binary32 word is a `-` if its sign bit is set, integer digits, a `.` and exactly six
fraction digits, and the millionths it stands for are within half a millionth of the magnitude. `2 ^ 149` times the
magnitude is the integer `units` below. On an exact tie the statement holds for either neighbour (the free value of log
entry 11); that the sign bit decides the `-` is the reading of log entry 14. -/
def Obligations.FloatTextIsNearest : Prop :=
  (∀ (w : Word) (expo frac units : Nat), expo = w.toNat / 2 ^ 23 % 2 ^ 8 → frac = w.toNat % 2 ^ 23 → expo ≠ 255 →
    units = (if expo = 0 then frac else (2 ^ 23 + frac) * 2 ^ (expo - 1)) →
    ∃ ip fp : List Char, plainDecimal ip ∧ fp.length = 6 ∧ (∀ c ∈ fp, c.isDigit = true) ∧
      textF32 w = (if w.getLsbD 31 then ['-'] else []) ++ ip ++ ['.'] ++ fp ∧
      2 * (((decimalValue ip * 10 ^ 6 + decimalValue fp) * 2 ^ 149 : Nat) - (units * 10 ^ 6 : Nat) : Int).natAbs
        ≤ 2 ^ 149) ∧
  (∀ (p : Params) (w : Word), eventText p ⟨.f32, w⟩ = textF32 w ++ p.printSuffix) ∧
  ∀ (s : State) (w : Word), outputText { s with output := s.output ++ [⟨.f32, w⟩] } =
    outputText s ++ textF32 w ++ s.params.printSuffix

/-! ## Miscellaneous -/

/-- R109. -/
def Obligations.NopOnlyAdvances : Prop :=
  ∀ (s : State) (opd : Byte) (imm1 imm2 : Word),
    Completes (.nop opd imm1 imm2) s s ∧ ∀ m e, (encode m e (.nop opd imm1 imm2)).head? = some m.nop

/-- R110, R79, R135: HALT returns ERR_HALT and changes nothing, `pc` included; at a HALT of the loaded program every
STEP does so, a STEP after a HALT too; a RUN from there, whatever its fuel above 0, returns OK. -/
def Obligations.HaltReturnsErrHalt : Prop :=
  ∀ (s : State) (opd : Byte) (imm1 imm2 : Word),
    exec (.halt opd imm1 imm2) s = .next { s with stepStatus := .errHalt } ∧
    (ProgramFits s → Fetches s (.halt opd imm1 imm2) →
      step s = .next { s with stepStatus := .errHalt } ∧
      step { s with stepStatus := .errHalt } = .next { s with stepStatus := .errHalt } ∧
      ∀ fuel, run (fuel + 1) s = (.returned .ok, { s with stepStatus := .errHalt })) ∧
    ∀ m e, (encode m e (.halt opd imm1 imm2)).head? = some m.halt

/-! ## Frames -/

/-- R34, frame of the instructions whose destination is a stack var: whatever the status, only the slot `S[opd]` and
`pc` may differ. -/
def Obligations.FrameOfStackVarWriters : Prop :=
  ∀ (s t : State) (opd : Byte) (imm1 imm2 : Word),
    ∀ mk ∈ [Instr.loadG, Instr.loadL, Instr.loadII32, Instr.addI32, Instr.addU32, Instr.subI32, Instr.mulI32,
        Instr.divI32],
    exec (mk opd imm1 imm2) s = .next t →
    FrameBase s t ∧ t.globals = s.globals ∧ t.locals = s.locals ∧ t.flags = s.flags ∧ t.output = s.output ∧
    t.stackVars.length = s.stackVars.length ∧ ∀ k, k ≠ opd.toNat → t.stackVars[k]? = s.stackVars[k]?

/-- R34, frame of STORE_G and STORE_L: only the slot `G[imm1]`, or `L[imm1]`, and `pc` may differ. -/
def Obligations.FrameOfBankStores : Prop :=
  ∀ (s t : State) (opd : Byte) (imm1 imm2 : Word),
    (exec (.storeG opd imm1 imm2) s = .next t →
      FrameBase s t ∧ t.stackVars = s.stackVars ∧ t.locals = s.locals ∧ t.flags = s.flags ∧ t.output = s.output ∧
      t.globals.length = s.globals.length ∧ ∀ k, k ≠ imm1.toNat → t.globals[k]? = s.globals[k]?) ∧
    (exec (.storeL opd imm1 imm2) s = .next t →
      FrameBase s t ∧ t.stackVars = s.stackVars ∧ t.globals = s.globals ∧ t.flags = s.flags ∧ t.output = s.output ∧
      t.locals.length = s.locals.length ∧ ∀ k, k ≠ imm1.toNat → t.locals[k]? = s.locals[k]?)

/-- R34, frame of the comparisons: only `flags` and `pc` may differ, and a comparison that ends with an error keeps
`flags` (R95). -/
def Obligations.FrameOfComparisons : Prop :=
  ∀ (s t : State) (opd : Byte) (imm1 imm2 : Word), ∀ mk ∈ [Instr.cmpI32, Instr.cmpU32],
    exec (mk opd imm1 imm2) s = .next t →
    FrameBase s t ∧ t.globals = s.globals ∧ t.locals = s.locals ∧ t.stackVars = s.stackVars ∧ t.output = s.output ∧
    (t.stepStatus ≠ .ok → t.flags = s.flags)

/-- R34, frame of the jumps, NOP and HALT: only `pc` may differ. -/
def Obligations.FrameOfControlFlowAndMisc : Prop :=
  ∀ (s t : State) (opd : Byte) (imm1 imm2 : Word),
    ∀ mk ∈ [Instr.jmp, Instr.jz, Instr.jnz, Instr.nop, Instr.halt],
    exec (mk opd imm1 imm2) s = .next t →
    FrameBase s t ∧ t.globals = s.globals ∧ t.locals = s.locals ∧ t.stackVars = s.stackVars ∧ t.flags = s.flags ∧
    t.output = s.output

/-- R34, R104, frame of the output instructions: only the output port and `pc`; exactly one event on success, none on
failure. -/
def Obligations.FrameOfOutput : Prop :=
  ∀ (s t : State) (opd : Byte) (imm1 imm2 : Word),
    ∀ mk ∈ [Instr.printU32, Instr.printF32, Instr.printI32],
    exec (mk opd imm1 imm2) s = .next t →
    FrameBase s t ∧ t.globals = s.globals ∧ t.locals = s.locals ∧ t.stackVars = s.stackVars ∧ t.flags = s.flags ∧
    (t.stepStatus = .ok → ∃ ev, t.output = s.output ++ [ev]) ∧ (t.stepStatus ≠ .ok → t.output = s.output)

/-! ## The whole machine -/

/-- R78: a step that returns any status but OK applies no write, emits nothing and leaves `pc` unchanged; all that
differs is the status returned. -/
def Obligations.FailingStepChangesNothing : Prop :=
  ∀ s t : State, step s = .next t → t.stepStatus ≠ .ok → t = { s with stepStatus := t.stepStatus }

/-- R122: there is no latch; after an error or a HALT, a later STEP returns the same status. -/
def Obligations.FailedStepRepeats : Prop :=
  ∀ s t : State, step s = .next t → t.stepStatus ≠ .ok → step t = .next t

/-- R80: no reachable state has a STEP without a status. -/
def Obligations.StepAlwaysCompletes : Prop := ∀ s : State, s.Inv → ∃ t, step s = .next t

/-- R115: the statuses each instruction can return. -/
def Obligations.StatusesOfEachInstruction : Prop :=
  ∀ (s t : State) (o : Byte) (a b : Word),
    (∀ mk ∈ [Instr.loadG, Instr.storeG], exec (mk o a b) s = .next t →
      t.stepStatus ∈ [Status.ok, .errInvalidGlobalIdx, .errInvalidStackVarIdx]) ∧
    (∀ mk ∈ [Instr.loadL, Instr.storeL], exec (mk o a b) s = .next t →
      t.stepStatus ∈ [Status.ok, .errInvalidLocalIdx, .errInvalidStackVarIdx]) ∧
    (exec (.loadII32 o a b) s = .next t → t.stepStatus ∈ [Status.ok, .errInvalidStackVarIdx]) ∧
    (∀ mk ∈ [Instr.addI32, Instr.addU32, Instr.subI32, Instr.mulI32, Instr.cmpI32, Instr.cmpU32, Instr.printU32,
        Instr.printF32, Instr.printI32], exec (mk o a b) s = .next t →
      t.stepStatus ∈ [Status.ok, .errInvalidStackVarIdx, .errTypeMismatch]) ∧
    (exec (.divI32 o a b) s = .next t →
      t.stepStatus ∈ [Status.ok, .errInvalidStackVarIdx, .errTypeMismatch, .errDivByZero]) ∧
    (∀ mk ∈ [Instr.jmp, Instr.jz, Instr.jnz], exec (mk o a b) s = .next t →
      t.stepStatus ∈ [Status.ok, .errInvalidPc]) ∧
    (exec (.nop o a b) s = .next t → t.stepStatus = .ok) ∧
    (exec (.halt o a b) s = .next t → t.stepStatus = .errHalt) ∧
    (ProgramFits s → InProgram s → s.params.opcodeMap.assigns (s.program.read s.pc.toNat) = false → step s = .next t →
      t.stepStatus = .errInvalidOpcode)

/-- R114: no command returns any of the five codes. -/
def Obligations.FiveCodesAreNeverReturned : Prop :=
  ∀ (c : Command) (s t : State) (st : Status), serve c s = (.status st, t) →
    st ∉ [Status.errStackOverflow, .errStackUnderflow, .errArrayBounds, .errInvalidBufferIdx, .errInvalidBufferPos]

/-- R23, R73, R99: a step that returns OK moves `pc` to the next ten bytes, without wrapping, unless a taken jump set it
to its target, which is inside the loaded program. -/
def Obligations.OkStepMovesPc : Prop :=
  ∀ (s t : State) (i : Instr), ProgramFits s → Fetches s i → step s = .next t → t.stepStatus = .ok →
    t.pc.toNat = s.pc.toNat + 10 ∨
    ((∃ o a b, i = .jmp o a b ∧ t.pc = a) ∨ (∃ o a b, i = .jz o a b ∧ zeroFlag s = true ∧ t.pc = a) ∨
      (∃ o a b, i = .jnz o a b ∧ zeroFlag s = false ∧ t.pc = a)) ∧ t.pc.toNat < s.programLen.toNat

/-- R36, kept by every step, from every state that has it. -/
def Obligations.StepKeepsInv : Prop := ∀ s t : State, s.Inv → step s = .next t → t.Inv

/-- R36: it holds in every state that INIT of a legal build and any sequence of host commands reach, the states within
a RUN that goes on among them. -/
def Obligations.ReachableStatesHaveInv : Prop :=
  ∀ (p : Params) (cs : List Command), p.wf → (serveAll cs (State.init p)).2.Inv

/-- The reset state, of the reference build (the model's choice, log entry 2), has the invariants of R36, and a STEP from
it returns ERR_INVALID_INSTRUCTION (R138's sentence, which the spec marks as derived). -/
def Obligations.ResetHasInv : Prop :=
  State.reset.Inv ∧ step State.reset = .next { State.reset with stepStatus := .errInvalidInstruction }

/-- No instruction makes a tag out of nothing but I32 (R89, R107: none produces a U32 or a FLOAT); so every step keeps all
slots VOID or I32, and every sequence of commands from INIT leaves them so (R142, as the spec derives it). -/
def Obligations.OnlyI32ValuesFromInit : Prop :=
  (∀ s t, step s = .next t → ∀ v ∈ slots t, v.tag = .i32 ∨ ∃ u ∈ slots s, u.tag = v.tag) ∧
  (∀ s t, OnlyI32 s → step s = .next t → OnlyI32 t) ∧
  ∀ (p : Params) (cs : List Command), OnlyI32 (serveAll cs (State.init p)).2

/-- R80, R32, R44: two states that differ only in what no step reads (`sp`, BUF, LESS, GREATER, the program bytes beyond
`program_len`, the status and events already sent) give the same status, the same events and again such states. -/
def Obligations.StepIgnoresWhatIsNotRead : Prop :=
  ∀ s₁ s₂ t₁ : State, SeenAlike s₁ s₂ → step s₁ = .next t₁ →
    ∃ t₂ ev, step s₂ = .next t₂ ∧ t₂.stepStatus = t₁.stepStatus ∧ SeenAlike t₁ t₂ ∧
      t₁.output = s₁.output ++ ev ∧ t₂.output = s₂.output ++ ev ∧ ev.length ≤ 1

/-! ## Host commands -/

/-- R137, of any state: it returns no status and emits no event (the record of the events already sent stays, log entry
4). -/
def Obligations.InitResetsEverything : Prop :=
  ∀ s : State, ∃ t, serve .init s = (.nothing, t) ∧ t.params = s.params ∧ t.pc = 0 ∧ t.flags = 0 ∧ t.programLen = 0 ∧
    t.sp = 0 ∧ (∀ a, t.program.read a = 0) ∧ BanksFit t ∧ (∀ v ∈ slots t, v = .void) ∧
    (∀ b ∈ t.buffers, b.bufferType = .void ∧ ∀ a, Memory.read b.elements a = 0) ∧ t.output = s.output

/-- R139, R140. -/
def Obligations.LoadStoresTheProgram : Prop :=
  ∀ (s : State) (bytes : List Byte), s.params.wf → ProgramFits s →
    (bytes.length ≤ s.params.programMaxSize → ∃ t, serve (.load bytes) s = (.status .ok, t) ∧
      (∀ a, a < bytes.length → some (t.program.read a) = bytes[a]?) ∧
      (∀ a, bytes.length ≤ a → t.program.read a = s.program.read a) ∧
      t.programLen.toNat = bytes.length ∧ t.pc = 0 ∧
      t = { s with program := t.program, programLen := t.programLen, pc := t.pc }) ∧
    (s.params.programMaxSize < bytes.length → serve (.load bytes) s = (.status .errProgramTooLarge, s))

/-- R128: INSPECT shows every piece of state, VOID's payload as 0 (R15), and changes nothing. The model's own choices in
it: the form of the dump (log entry 18), and that a buffer of type VOID too, and so every reachable one, shows 256
element bytes (log entry 5). -/
def Obligations.InspectShowsTheState : Prop :=
  ∀ s : State, FlagsLegal s → ∃ d, serve .inspect s = (.dump d, s) ∧
    d.pc = s.pc ∧ d.sp = s.sp ∧ d.flags = s.flags ∧ d.programLen = s.programLen ∧
    d.program.length = s.params.programMaxSize ∧
    (∀ a, a < s.params.programMaxSize → d.program[a]? = some (s.program.read a)) ∧
    (∀ i : Nat, d.globals[i]? = s.globals[i]?.map fun v : TypedValue => (v.tag.code, v.pay)) ∧
    (∀ i : Nat, d.locals[i]? = s.locals[i]?.map fun v : TypedValue => (v.tag.code, v.pay)) ∧
    (∀ i : Nat, d.stackVars[i]? = s.stackVars[i]?.map fun v : TypedValue => (v.tag.code, v.pay)) ∧
    d.buffers.length = s.buffers.length ∧
    ∀ (i : Nat) (b : TypedBuffer), s.buffers[i]? = some b →
      ∃ bytes : List Byte, d.buffers[i]? = some (b.bufferType.code, bytes) ∧ bytes.length = 256 ∧
        ∀ a, a < 256 → bytes[a]? = some (Memory.read b.elements a)

/-- R132: RUN steps while the status is OK and returns, within some fuel, exactly what the first other status maps to:
ERR_HALT to OK, every other error unchanged; it never returns ERR_HALT, returns OK only through HALT, and goes on
(`outOfFuel`) exactly while every step so far is OK. -/
def Obligations.RunReturnsTheMappedStatus : Prop :=
  ∀ (fuel : Nat) (s : State),
    (∀ (st : Status) (t : State), run fuel s = (.returned st, t) ↔
      ∃ n u, n < fuel ∧ okSteps n s u ∧ step u = .next t ∧ t.stepStatus ≠ .ok ∧
        st = if t.stepStatus = .errHalt then .ok else t.stepStatus) ∧
    (∀ t : State, run fuel s = (.outOfFuel, t) ↔ okSteps fuel s t) ∧
    ∀ (st : Status) (t : State), run fuel s = (.returned st, t) →
      st ≠ .errHalt ∧ (st = .ok ↔ t.stepStatus = .errHalt)

/-- R146: a jump to its own offset never lets RUN return, whatever the fuel. -/
def Obligations.SelfLoopNeverReturns : Prop :=
  ∀ (s : State) (o : Byte) (b : Word), ProgramFits s → Fetches s (.jmp o s.pc b) →
    ∀ fuel, (run fuel s).1 = .outOfFuel

/-! ## Codes and buffer checks -/

/-- R14, R21, R111: the numeric codes, in the order of the rules' lists. -/
def Obligations.CodesAreTheSpecs : Prop :=
  [Tag.void, .i32, .u32, .float, .u8x4, .u16x2, .unicode, .globalRef, .stackRef, .bufferRef, .bufferPos].map Tag.code =
    List.range 11 ∧
  [BufferType.void, .u8, .u16, .i32, .u32, .float].map BufferType.code = List.range 6 ∧
  [Status.ok, .errStackOverflow, .errStackUnderflow, .errDivByZero, .errInvalidOpcode, .errTypeMismatch,
    .errArrayBounds, .errInvalidGlobalIdx, .errInvalidLocalIdx, .errInvalidStackVarIdx, .errInvalidBufferIdx,
    .errInvalidBufferPos, .errInvalidPc, .errInvalidInstruction, .errProgramTooLarge, .errHalt].map Status.code =
    List.range 16

/-- R29, R30: the buffer checks, kept for the source's sake: no instruction reaches them. The capacities are R21's, and so
are the 256 bytes of every type but VOID, which R21 marks as derived from the capacities and element widths. -/
def Obligations.BufferChecksAreTheSpecs : Prop :=
  (∀ (s : State) (i : Nat) (k : TypedBuffer → Result), BanksFit s →
    (i < s.params.gMembufCount → ∃ b, s.buffers[i]? = some b ∧ resolveB i s k = k b) ∧
    (s.params.gMembufCount ≤ i → resolveB i s k = .next { s with stepStatus := .errInvalidBufferIdx })) ∧
  (∀ (t : BufferType) (pos : Nat), validateBufferPos t pos = true ↔ pos < t.capacity) ∧
  (∀ (b : TypedBuffer) (pos : Nat) (s : State) (k : Result),
    (pos < b.bufferType.capacity → resolveBufferPos b pos s k = k) ∧
    (b.bufferType.capacity ≤ pos → resolveBufferPos b pos s k = .next { s with stepStatus := .errInvalidBufferPos })) ∧
  [BufferType.void, .u8, .u16, .i32, .u32, .float].map BufferType.capacity = [0, 256, 128, 64, 64, 64] ∧
  ∀ t : BufferType, t ≠ .void → t.capacity * t.elementBytes = 256

/-! ## Sequences of commands -/

/-- R129: every command but the last one served has completed; behind completed commands the next ones are served, and
behind a RUN that goes on, exactly while all its steps are OK, none is, INIT and INSPECT included; a host's own loop of
STEPs limits the count of instructions (the form of the replies is the model's, log entries 12 and 21). -/
def Obligations.CommandsAreSerialised : Prop :=
  ∀ (cs ds : List Command) (s : State),
    (∀ r ∈ (serveAll cs s).1.dropLast, r ≠ .running ∧ r ≠ .stopped) ∧
    ((∀ r ∈ (serveAll cs s).1, r ≠ .running ∧ r ≠ .stopped) →
      (serveAll cs s).1.length = cs.length ∧
      serveAll (cs ++ ds) s =
        ((serveAll cs s).1 ++ (serveAll ds (serveAll cs s).2).1, (serveAll ds (serveAll cs s).2).2)) ∧
    (Reply.running ∈ (serveAll cs s).1 → serveAll (cs ++ ds) s = serveAll cs s) ∧
    (∀ (fuel : Nat) (t : State), serveAll (.run fuel :: ds) s = ([.running], t) ↔ okSteps fuel s t) ∧
    ∀ (n : Nat) (t : State),
      serveAll (List.replicate n .step) s = (List.replicate n (.status .ok), t) ↔ okSteps n s t
end

