-- ==== Sys2Proof/Laws/Commands.lean ====
section
/-! SUPPORT. The host commands: which of them have completed, how a sequence is served, and the one induction by which a
property of the state holds along every RUN and every sequence of commands. -/

namespace Sys2Proof.Machine

theorem Reply.completed_eq_false (r : Reply) : r.completed = false ↔ r = .running ∨ r = .stopped := by
  cases r <;> simp [Reply.completed]

@[simp] theorem serveAll_nil (s : State) : serveAll [] s = ([], s) := rfl

/-- A completed command hands on to the next. -/
theorem serveAll_cons_completed (c : Command) (cs : List Command) (s : State) (h : (serve c s).1.completed = true) :
    serveAll (c :: cs) s =
      ((serve c s).1 :: (serveAll cs (serve c s).2).1, (serveAll cs (serve c s).2).2) := by
  simp [serveAll, h]

/-- Behind a command that has not completed none is served. -/
theorem serveAll_cons_pending (c : Command) (cs : List Command) (s : State) (h : (serve c s).1.completed = false) :
    serveAll (c :: cs) s = ([(serve c s).1], (serve c s).2) := by
  simp [serveAll, h]

/-- A property that every step keeps holds along a RUN. -/
theorem run_keeps (P : State → Prop) (hstep : ∀ s t, P s → step s = .next t → P t) (fuel : Nat) (s : State)
    (hs : P s) : P (run fuel s).2 := by
  induction fuel generalizing s with
  | zero => exact hs
  | succ fuel ih =>
    unfold run
    cases h : step s with
    | next t =>
      have ht := hstep s t hs h
      dsimp only
      split
      · exact ih t ht
      · exact ht
    | fault _ => exact hs
    | refused _ => exact hs

/-- A property that INIT, LOAD and every step keep is kept by every command. -/
theorem serve_keeps (P : State → Prop) (hstep : ∀ s t, P s → step s = .next t → P t)
    (hinit : ∀ s, P s → P (cmdInit s)) (hload : ∀ s bytes, P s → P (cmdLoad bytes s).2) (c : Command) (s : State)
    (hs : P s) : P (serve c s).2 := by
  cases c with
  | init => exact hinit s hs
  | load bytes => exact hload s bytes hs
  | step =>
    unfold serve
    cases h : step s with
    | next t => exact hstep s t hs h
    | fault _ => exact hs
    | refused _ => exact hs
  | run fuel => exact run_keeps P hstep fuel s hs
  | inspect => exact hs

/-- And by every sequence of them. -/
theorem serveAll_keeps (P : State → Prop) (hstep : ∀ s t, P s → step s = .next t → P t)
    (hinit : ∀ s, P s → P (cmdInit s)) (hload : ∀ s bytes, P s → P (cmdLoad bytes s).2) (cs : List Command)
    (s : State) (hs : P s) : P (serveAll cs s).2 := by
  induction cs generalizing s with
  | nil => exact hs
  | cons c cs ih =>
    have hc := serve_keeps P hstep hinit hload c s hs
    unfold serveAll
    split
    · exact ih _ hc
    · exact hc

end Sys2Proof.Machine
end

