-- ==== Sys2Proof/Laws/Decode.lean ====
section
/-! SUPPORT. The laws of the encoding: opcode bytes, immediate words, records. -/

namespace Sys2Proof

theorem Opcode.mem_all (op : Opcode) : op ∈ Opcode.all := by cases op <;> decide

theorem OpcodeMap.bytes_eq (m : OpcodeMap) : m.bytes = Opcode.all.map m.byteOf := rfl

theorem Opcode.all_nodup : Opcode.all.Nodup := by decide

/-- A legal map gives no byte twice (R60). -/
theorem OpcodeMap.byteOf_injective (m : OpcodeMap) (hm : m.wf) (x y : Opcode) (h : m.byteOf x = m.byteOf y) : x = y :=
  List.inj_on_of_nodup_map (m.bytes_eq ▸ hm) (Opcode.mem_all x) (Opcode.mem_all y) h

/-- What `opcodeOf` finds has that byte. -/
theorem OpcodeMap.byteOf_of_opcodeOf (m : OpcodeMap) (b : Byte) (op : Opcode) (h : m.opcodeOf b = some op) :
    m.byteOf op = b := by
  have := List.find?_some h
  simpa using this

/-- Under a legal map, the byte of an opcode is read back as that opcode. -/
theorem OpcodeMap.opcodeOf_byteOf (m : OpcodeMap) (hm : m.wf) (op : Opcode) : m.opcodeOf (m.byteOf op) = some op := by
  cases h : m.opcodeOf (m.byteOf op) with
  | none =>
    have := List.find?_eq_none.mp h op (Opcode.mem_all op)
    simp at this
  | some o => rw [m.byteOf_injective hm o op (m.byteOf_of_opcodeOf _ o h)]

/-- `opcodeOf` finds nothing exactly for an unassigned byte (R61). -/
theorem OpcodeMap.opcodeOf_eq_none (m : OpcodeMap) (b : Byte) : m.opcodeOf b = none ↔ m.assigns b = false := by
  unfold OpcodeMap.opcodeOf OpcodeMap.assigns
  rw [List.find?_eq_none, m.bytes_eq]
  simp only [beq_iff_eq, ← Bool.not_eq_true, List.contains_iff_mem, List.mem_map, not_exists, not_and]

@[simp] theorem Instr.make_record (op : Opcode) (o : Byte) (a b : Word) :
    (Instr.make op o a b).record = (op, o, a, b) := by
  cases op <;> rfl

/-- An instruction is the instruction its record makes. -/
theorem Instr.make_of_record (i : Instr) : Instr.make i.record.1 i.record.2.1 i.record.2.2.1 i.record.2.2.2 = i := by
  cases i <;> rfl

end Sys2Proof
end

