-- ==== Sys2Proof/Laws/Operands.lean ====
section
/-! SUPPORT. One lemma per shared operation: everything its answer can be. Proofs about an instruction cite these and
never unfold an operation. -/

namespace Sys2Proof.Machine

theorem commit_eq (target : Word) (s : State) : commit target s = .next { s with pc := target, stepStatus := .ok } := rfl

theorem advance_eq (s : State) : advance s = .next { s with pc := s.pc + 10, stepStatus := .ok } := rfl

theorem raise_eq (e : Status) (s : State) : raise e s = .next { s with stepStatus := e } := rfl

/-- A masked index is the low byte's value (R58). -/
theorem maskedIdx_eq (imm : Word) : maskedIdx imm = imm.toNat % 256 := by
  simp only [maskedIdx, BitVec.toNat_and]
  exact Nat.and_two_pow_sub_one_eq_mod imm.toNat 8

/-! ## Index checks (R26 to R30) -/

theorem resolveS_some {i : Nat} {s : State} {v : TypedValue} (h : s.stackVars[i]? = some v) (k : TypedValue → Result) :
    resolveS i s k = k v := by
  simp [resolveS, readS, h]

theorem resolveS_of_lt {i : Nat} {s : State} (h : i < s.stackVars.length) (k : TypedValue → Result) :
    resolveS i s k = k s.stackVars[i] := resolveS_some (List.getElem?_eq_getElem h) k

theorem resolveS_of_ge {i : Nat} {s : State} (h : s.stackVars.length ≤ i) (k : TypedValue → Result) :
    resolveS i s k = raise .errInvalidStackVarIdx s := by
  simp [resolveS, readS, h]

/-- `resolve_S` yields the slot, or raises its error. -/
theorem resolveS_cases (i : Nat) (s : State) (k : TypedValue → Result) :
    (∃ v, s.stackVars[i]? = some v ∧ resolveS i s k = k v) ∨
    (s.stackVars.length ≤ i ∧ resolveS i s k = raise .errInvalidStackVarIdx s) := by
  rcases Nat.lt_or_ge i s.stackVars.length with h | h
  · exact .inl ⟨_, List.getElem?_eq_getElem h, resolveS_of_lt h k⟩
  · exact .inr ⟨h, resolveS_of_ge h k⟩

theorem resolveG_some {i : Nat} {s : State} {v : TypedValue} (h : s.globals[i]? = some v) (k : TypedValue → Result) :
    resolveG i s k = k v := by
  simp [resolveG, readG, h]

theorem resolveG_of_ge {i : Nat} {s : State} (h : s.globals.length ≤ i) (k : TypedValue → Result) :
    resolveG i s k = raise .errInvalidGlobalIdx s := by
  simp [resolveG, readG, h]

/-- `resolve_G` yields the slot, or raises its error. -/
theorem resolveG_cases (i : Nat) (s : State) (k : TypedValue → Result) :
    (∃ v, s.globals[i]? = some v ∧ resolveG i s k = k v) ∨
    (s.globals.length ≤ i ∧ resolveG i s k = raise .errInvalidGlobalIdx s) := by
  rcases Nat.lt_or_ge i s.globals.length with h | h
  · exact .inl ⟨_, List.getElem?_eq_getElem h, resolveG_some (List.getElem?_eq_getElem h) k⟩
  · exact .inr ⟨h, resolveG_of_ge h k⟩

theorem resolveL_some {i : Nat} {s : State} {v : TypedValue} (h : s.locals[i]? = some v) (k : TypedValue → Result) :
    resolveL i s k = k v := by
  simp [resolveL, readL, h]

theorem resolveL_of_ge {i : Nat} {s : State} (h : s.locals.length ≤ i) (k : TypedValue → Result) :
    resolveL i s k = raise .errInvalidLocalIdx s := by
  simp [resolveL, readL, h]

/-- `resolve_L` yields the slot, or raises its error. -/
theorem resolveL_cases (i : Nat) (s : State) (k : TypedValue → Result) :
    (∃ v, s.locals[i]? = some v ∧ resolveL i s k = k v) ∨
    (s.locals.length ≤ i ∧ resolveL i s k = raise .errInvalidLocalIdx s) := by
  rcases Nat.lt_or_ge i s.locals.length with h | h
  · exact .inl ⟨_, List.getElem?_eq_getElem h, resolveL_some (List.getElem?_eq_getElem h) k⟩
  · exact .inr ⟨h, resolveL_of_ge h k⟩

/-! ## Tag checks (R75) -/

theorem requireTag_eq {t : Tag} {v : TypedValue} (h : v.tag = t) (s : State) (k : Word → Result) :
    requireTag t v s k = k v.pay := by
  simp [requireTag, h]

theorem requireTag_ne {t : Tag} {v : TypedValue} (h : v.tag ≠ t) (s : State) (k : Word → Result) :
    requireTag t v s k = raise .errTypeMismatch s := by
  simp [requireTag, h]

theorem requireTags_eq {t : Tag} {v w : TypedValue} (hv : v.tag = t) (hw : w.tag = t) (s : State)
    (k : Word → Word → Result) : requireTags t v w s k = k v.pay w.pay := by
  simp [requireTags, requireTag, hv, hw]

theorem requireTags_ne {t : Tag} {v w : TypedValue} (h : v.tag ≠ t ∨ w.tag ≠ t) (s : State)
    (k : Word → Word → Result) : requireTags t v w s k = raise .errTypeMismatch s := by
  unfold requireTags requireTag
  split
  · next hv => simp [h.resolve_left (not_not.mpr hv)]
  · rfl

/-- A value of a tag, from the tag and the payload. -/
theorem TypedValue.ofTag_tag_pay (v : TypedValue) : TypedValue.ofTag v.tag v.pay = v := by cases v <;> rfl

/-! ## The operand forms of the families -/

/-- The operands of an arithmetic instruction: both payloads, or an index error, or a type error (R87, R81). -/
theorem binopOperands_cases (t : Tag) (opd : Byte) (imm1 imm2 : Word) (s : State) (k : Word → Word → Result) :
    (∃ v w, s.stackVars[maskedIdx imm1]? = some v ∧ s.stackVars[maskedIdx imm2]? = some w ∧
      opd.toNat < s.stackVars.length ∧ v.tag = t ∧ w.tag = t ∧
      binopOperands t opd imm1 imm2 s k = k v.pay w.pay) ∨
    binopOperands t opd imm1 imm2 s k = raise .errInvalidStackVarIdx s ∨
    binopOperands t opd imm1 imm2 s k = raise .errTypeMismatch s := by
  unfold binopOperands
  rcases resolveS_cases (maskedIdx imm1) s _ with ⟨v, hv, h1⟩ | ⟨-, h1⟩
  · rcases resolveS_cases (maskedIdx imm2) s _ with ⟨w, hw, h2⟩ | ⟨-, h2⟩
    · rcases Nat.lt_or_ge opd.toNat s.stackVars.length with hd | hd
      · have h3 := resolveS_of_lt hd fun _ => requireTags t v w s k
        by_cases ht : v.tag = t ∧ w.tag = t
        · exact .inl ⟨v, w, hv, hw, hd, ht.1, ht.2,
            h1.trans (h2.trans (h3.trans (requireTags_eq ht.1 ht.2 s k)))⟩
        · have ht' : v.tag ≠ t ∨ w.tag ≠ t := by tauto
          exact .inr (.inr (h1.trans (h2.trans (h3.trans (requireTags_ne ht' s k)))))
      · exact .inr (.inl (h1.trans (h2.trans (resolveS_of_ge hd _))))
    · exact .inr (.inl (h1.trans h2))
  · exact .inr (.inl h1)

/-- The operands of a comparison (R95, R81). -/
theorem cmpOperands_cases (t : Tag) (imm1 imm2 : Word) (s : State) (k : Word → Word → Result) :
    (∃ v w, s.stackVars[maskedIdx imm1]? = some v ∧ s.stackVars[maskedIdx imm2]? = some w ∧
      v.tag = t ∧ w.tag = t ∧ cmpOperands t imm1 imm2 s k = k v.pay w.pay) ∨
    cmpOperands t imm1 imm2 s k = raise .errInvalidStackVarIdx s ∨
    cmpOperands t imm1 imm2 s k = raise .errTypeMismatch s := by
  unfold cmpOperands
  rcases resolveS_cases (maskedIdx imm1) s _ with ⟨v, hv, h1⟩ | ⟨-, h1⟩
  · rcases resolveS_cases (maskedIdx imm2) s _ with ⟨w, hw, h2⟩ | ⟨-, h2⟩
    · by_cases ht : v.tag = t ∧ w.tag = t
      · exact .inl ⟨v, w, hv, hw, ht.1, ht.2, h1.trans (h2.trans (requireTags_eq ht.1 ht.2 s k))⟩
      · have ht' : v.tag ≠ t ∨ w.tag ≠ t := by tauto
        exact .inr (.inr (h1.trans (h2.trans (requireTags_ne ht' s k))))
    · exact .inr (.inl (h1.trans h2))
  · exact .inr (.inl h1)

/-- The operand of an output instruction (R106, R81). -/
theorem printOperand_cases (t : Tag) (imm1 : Word) (s : State) (k : Word → Result) :
    (∃ v, s.stackVars[maskedIdx imm1]? = some v ∧ v.tag = t ∧ printOperand t imm1 s k = k v.pay) ∨
    printOperand t imm1 s k = raise .errInvalidStackVarIdx s ∨
    printOperand t imm1 s k = raise .errTypeMismatch s := by
  unfold printOperand
  rcases resolveS_cases (maskedIdx imm1) s _ with ⟨v, hv, h1⟩ | ⟨-, h1⟩
  · by_cases ht : v.tag = t
    · exact .inl ⟨v, hv, ht, h1.trans (requireTag_eq ht s k)⟩
    · exact .inr (.inr (h1.trans (requireTag_ne ht s k)))
  · exact .inr (.inl h1)

/-- A taken jump commits its target, or raises ERR_INVALID_PC (R99). -/
theorem takeJump_cases (imm1 : Word) (s : State) :
    (imm1.toNat < s.programLen.toNat ∧ takeJump imm1 s = .next { s with pc := imm1, stepStatus := .ok }) ∨
    (s.programLen.toNat ≤ imm1.toNat ∧ takeJump imm1 s = raise .errInvalidPc s) := by
  unfold takeJump
  split
  · next h => exact .inl ⟨h, rfl⟩
  · next h => exact .inr ⟨Nat.le_of_not_lt h, rfl⟩

end Sys2Proof.Machine
end

