-- ==== Sys2Proof/Laws/State.lean ====
section
/-! SUPPORT. One lemma per field of State per update: a later proof never unfolds a record update. -/

namespace Sys2Proof.Machine

/-! ## writeG -/

@[simp] theorem writeG_params (i : Nat) (v : TypedValue) (s : State) : (writeG i v s).params = s.params := rfl
@[simp] theorem writeG_program (i : Nat) (v : TypedValue) (s : State) : (writeG i v s).program = s.program := rfl
@[simp] theorem writeG_programLen (i : Nat) (v : TypedValue) (s : State) : (writeG i v s).programLen = s.programLen := rfl
@[simp] theorem writeG_pc (i : Nat) (v : TypedValue) (s : State) : (writeG i v s).pc = s.pc := rfl
@[simp] theorem writeG_globals (i : Nat) (v : TypedValue) (s : State) : (writeG i v s).globals = s.globals.set i v := rfl
@[simp] theorem writeG_locals (i : Nat) (v : TypedValue) (s : State) : (writeG i v s).locals = s.locals := rfl
@[simp] theorem writeG_stackVars (i : Nat) (v : TypedValue) (s : State) : (writeG i v s).stackVars = s.stackVars := rfl
@[simp] theorem writeG_buffers (i : Nat) (v : TypedValue) (s : State) : (writeG i v s).buffers = s.buffers := rfl
@[simp] theorem writeG_sp (i : Nat) (v : TypedValue) (s : State) : (writeG i v s).sp = s.sp := rfl
@[simp] theorem writeG_flags (i : Nat) (v : TypedValue) (s : State) : (writeG i v s).flags = s.flags := rfl
@[simp] theorem writeG_output (i : Nat) (v : TypedValue) (s : State) : (writeG i v s).output = s.output := rfl
@[simp] theorem writeG_stepStatus (i : Nat) (v : TypedValue) (s : State) : (writeG i v s).stepStatus = s.stepStatus := rfl

/-! ## writeL -/

@[simp] theorem writeL_params (i : Nat) (v : TypedValue) (s : State) : (writeL i v s).params = s.params := rfl
@[simp] theorem writeL_program (i : Nat) (v : TypedValue) (s : State) : (writeL i v s).program = s.program := rfl
@[simp] theorem writeL_programLen (i : Nat) (v : TypedValue) (s : State) : (writeL i v s).programLen = s.programLen := rfl
@[simp] theorem writeL_pc (i : Nat) (v : TypedValue) (s : State) : (writeL i v s).pc = s.pc := rfl
@[simp] theorem writeL_globals (i : Nat) (v : TypedValue) (s : State) : (writeL i v s).globals = s.globals := rfl
@[simp] theorem writeL_locals (i : Nat) (v : TypedValue) (s : State) : (writeL i v s).locals = s.locals.set i v := rfl
@[simp] theorem writeL_stackVars (i : Nat) (v : TypedValue) (s : State) : (writeL i v s).stackVars = s.stackVars := rfl
@[simp] theorem writeL_buffers (i : Nat) (v : TypedValue) (s : State) : (writeL i v s).buffers = s.buffers := rfl
@[simp] theorem writeL_sp (i : Nat) (v : TypedValue) (s : State) : (writeL i v s).sp = s.sp := rfl
@[simp] theorem writeL_flags (i : Nat) (v : TypedValue) (s : State) : (writeL i v s).flags = s.flags := rfl
@[simp] theorem writeL_output (i : Nat) (v : TypedValue) (s : State) : (writeL i v s).output = s.output := rfl
@[simp] theorem writeL_stepStatus (i : Nat) (v : TypedValue) (s : State) : (writeL i v s).stepStatus = s.stepStatus := rfl

/-! ## writeS -/

@[simp] theorem writeS_params (i : Nat) (v : TypedValue) (s : State) : (writeS i v s).params = s.params := rfl
@[simp] theorem writeS_program (i : Nat) (v : TypedValue) (s : State) : (writeS i v s).program = s.program := rfl
@[simp] theorem writeS_programLen (i : Nat) (v : TypedValue) (s : State) : (writeS i v s).programLen = s.programLen := rfl
@[simp] theorem writeS_pc (i : Nat) (v : TypedValue) (s : State) : (writeS i v s).pc = s.pc := rfl
@[simp] theorem writeS_globals (i : Nat) (v : TypedValue) (s : State) : (writeS i v s).globals = s.globals := rfl
@[simp] theorem writeS_locals (i : Nat) (v : TypedValue) (s : State) : (writeS i v s).locals = s.locals := rfl
@[simp] theorem writeS_stackVars (i : Nat) (v : TypedValue) (s : State) : (writeS i v s).stackVars = s.stackVars.set i v := rfl
@[simp] theorem writeS_buffers (i : Nat) (v : TypedValue) (s : State) : (writeS i v s).buffers = s.buffers := rfl
@[simp] theorem writeS_sp (i : Nat) (v : TypedValue) (s : State) : (writeS i v s).sp = s.sp := rfl
@[simp] theorem writeS_flags (i : Nat) (v : TypedValue) (s : State) : (writeS i v s).flags = s.flags := rfl
@[simp] theorem writeS_output (i : Nat) (v : TypedValue) (s : State) : (writeS i v s).output = s.output := rfl
@[simp] theorem writeS_stepStatus (i : Nat) (v : TypedValue) (s : State) : (writeS i v s).stepStatus = s.stepStatus := rfl

/-! ## writeFlags -/

@[simp] theorem writeFlags_params (f : BitVec 8) (s : State) : (writeFlags f s).params = s.params := rfl
@[simp] theorem writeFlags_program (f : BitVec 8) (s : State) : (writeFlags f s).program = s.program := rfl
@[simp] theorem writeFlags_programLen (f : BitVec 8) (s : State) : (writeFlags f s).programLen = s.programLen := rfl
@[simp] theorem writeFlags_pc (f : BitVec 8) (s : State) : (writeFlags f s).pc = s.pc := rfl
@[simp] theorem writeFlags_globals (f : BitVec 8) (s : State) : (writeFlags f s).globals = s.globals := rfl
@[simp] theorem writeFlags_locals (f : BitVec 8) (s : State) : (writeFlags f s).locals = s.locals := rfl
@[simp] theorem writeFlags_stackVars (f : BitVec 8) (s : State) : (writeFlags f s).stackVars = s.stackVars := rfl
@[simp] theorem writeFlags_buffers (f : BitVec 8) (s : State) : (writeFlags f s).buffers = s.buffers := rfl
@[simp] theorem writeFlags_sp (f : BitVec 8) (s : State) : (writeFlags f s).sp = s.sp := rfl
@[simp] theorem writeFlags_flags (f : BitVec 8) (s : State) : (writeFlags f s).flags = f &&& flagsMask := rfl
@[simp] theorem writeFlags_output (f : BitVec 8) (s : State) : (writeFlags f s).output = s.output := rfl
@[simp] theorem writeFlags_stepStatus (f : BitVec 8) (s : State) : (writeFlags f s).stepStatus = s.stepStatus := rfl

/-! ## emit -/

@[simp] theorem emit_params (k : EventKind) (w : Word) (s : State) : (emit k w s).params = s.params := rfl
@[simp] theorem emit_program (k : EventKind) (w : Word) (s : State) : (emit k w s).program = s.program := rfl
@[simp] theorem emit_programLen (k : EventKind) (w : Word) (s : State) : (emit k w s).programLen = s.programLen := rfl
@[simp] theorem emit_pc (k : EventKind) (w : Word) (s : State) : (emit k w s).pc = s.pc := rfl
@[simp] theorem emit_globals (k : EventKind) (w : Word) (s : State) : (emit k w s).globals = s.globals := rfl
@[simp] theorem emit_locals (k : EventKind) (w : Word) (s : State) : (emit k w s).locals = s.locals := rfl
@[simp] theorem emit_stackVars (k : EventKind) (w : Word) (s : State) : (emit k w s).stackVars = s.stackVars := rfl
@[simp] theorem emit_buffers (k : EventKind) (w : Word) (s : State) : (emit k w s).buffers = s.buffers := rfl
@[simp] theorem emit_sp (k : EventKind) (w : Word) (s : State) : (emit k w s).sp = s.sp := rfl
@[simp] theorem emit_flags (k : EventKind) (w : Word) (s : State) : (emit k w s).flags = s.flags := rfl
@[simp] theorem emit_output (k : EventKind) (w : Word) (s : State) : (emit k w s).output = s.output ++ [⟨k, w⟩] := rfl
@[simp] theorem emit_stepStatus (k : EventKind) (w : Word) (s : State) : (emit k w s).stepStatus = s.stepStatus := rfl

/-! ## INIT -/

@[simp] theorem State.init_params (p : Params) : (State.init p).params = p := rfl
@[simp] theorem State.init_program (p : Params) : (State.init p).program = [] := rfl
@[simp] theorem State.init_programLen (p : Params) : (State.init p).programLen = 0 := rfl
@[simp] theorem State.init_pc (p : Params) : (State.init p).pc = 0 := rfl
@[simp] theorem State.init_globals (p : Params) : (State.init p).globals = List.replicate p.gVarsCount .void := rfl
@[simp] theorem State.init_locals (p : Params) : (State.init p).locals = List.replicate p.stackLocalsCount .void := rfl
@[simp] theorem State.init_stackVars (p : Params) : (State.init p).stackVars = List.replicate p.stackVarCount .void := rfl
@[simp] theorem State.init_buffers (p : Params) : (State.init p).buffers = List.replicate p.gMembufCount ⟨.void, []⟩ := rfl
@[simp] theorem State.init_sp (p : Params) : (State.init p).sp = 0 := rfl
@[simp] theorem State.init_flags (p : Params) : (State.init p).flags = 0 := rfl
@[simp] theorem State.init_output (p : Params) : (State.init p).output = [] := rfl
@[simp] theorem State.init_stepStatus (p : Params) : (State.init p).stepStatus = .ok := rfl

/-! ## A slot after a write -/

theorem readS_writeS_same (i : Nat) (v : TypedValue) (s : State) (h : i < s.stackVars.length) :
    readS i (writeS i v s) = some v := by
  simp [readS, h]

theorem readS_writeS_other (i j : Nat) (v : TypedValue) (s : State) (h : i ≠ j) :
    readS j (writeS i v s) = readS j s := by
  simp [readS, h]

theorem readG_writeG_same (i : Nat) (v : TypedValue) (s : State) (h : i < s.globals.length) :
    readG i (writeG i v s) = some v := by
  simp [readG, h]

theorem readG_writeG_other (i j : Nat) (v : TypedValue) (s : State) (h : i ≠ j) :
    readG j (writeG i v s) = readG j s := by
  simp [readG, h]

theorem readL_writeL_same (i : Nat) (v : TypedValue) (s : State) (h : i < s.locals.length) :
    readL i (writeL i v s) = some v := by
  simp [readL, h]

theorem readL_writeL_other (i j : Nat) (v : TypedValue) (s : State) (h : i ≠ j) :
    readL j (writeL i v s) = readL j s := by
  simp [readL, h]

end Sys2Proof.Machine
end

