-- ==== Sys2Proof/Laws/Exec.lean ====
section
/-! SUPPORT. What an instruction can do, said once: it raises an error and changes nothing, or it commits at most one
write and a successor. -/

namespace Sys2Proof.Machine

/-- The flags a comparison writes are one bit of the three, whatever it compares (R96). -/
theorem cmpFlags_ltI32 (a b : Word) :
    cmpFlags ltI32 a b &&& flagsMask = 0b001 ∨ cmpFlags ltI32 a b &&& flagsMask = 0b010 ∨
    cmpFlags ltI32 a b &&& flagsMask = 0b100 := by
  unfold cmpFlags ltI32 asI32
  rcases lt_trichotomy a.toInt b.toInt with h | h | h
  · have h1 : ¬ b.toInt < a.toInt := by omega
    have h2 : (a == b) = false := by
      rw [beq_eq_false_iff_ne]
      rintro rfl
      omega
    simp [h, h1, h2, flagsMask]
  · have h2 : a = b := BitVec.eq_of_toInt_eq h
    simp [h2, flagsMask]
  · have h1 : ¬ a.toInt < b.toInt := by omega
    have h2 : (a == b) = false := by
      rw [beq_eq_false_iff_ne]
      rintro rfl
      omega
    simp [h, h1, h2, flagsMask]

/-- As `cmpFlags_ltI32`, for the unsigned order. -/
theorem cmpFlags_ltU32 (a b : Word) :
    cmpFlags ltU32 a b &&& flagsMask = 0b001 ∨ cmpFlags ltU32 a b &&& flagsMask = 0b010 ∨
    cmpFlags ltU32 a b &&& flagsMask = 0b100 := by
  unfold cmpFlags ltU32
  rcases lt_trichotomy a.toNat b.toNat with h | h | h
  · have h1 : ¬ b.toNat < a.toNat := by omega
    have h2 : (a == b) = false := by
      rw [beq_eq_false_iff_ne]
      rintro rfl
      omega
    simp [h, h1, h2, flagsMask]
  · have h2 : a = b := BitVec.eq_of_toNat_eq h
    simp [h2, flagsMask]
  · have h1 : ¬ a.toNat < b.toNat := by omega
    have h2 : (a == b) = false := by
      rw [beq_eq_false_iff_ne]
      rintro rfl
      omega
    simp [h, h1, h2, flagsMask]

/-- ZERO is bit 0 of the register (R25). -/
theorem zeroFlag_eq (s : State) : zeroFlag s = s.flags.getLsbD 0 := by
  simp [zeroFlag, readFlags, flagsMask]

/-- The tag comes from a slot of the state, or is I32 (R142: LOAD_I_I32 creates an I32, data movement copies, and
arithmetic keeps its sources' tag). -/
abbrev TagFrom (s : State) (v : TypedValue) : Prop :=
  v.tag = .i32 ∨ ∃ u ∈ s.globals ++ s.locals ++ s.stackVars, u.tag = v.tag

/-- `u` is `s` with the slot `S[k]` written. -/
abbrev WroteS (s : State) (k : Nat) (u : State) : Prop := ∃ v, TagFrom s v ∧ u = writeS k v s

/-- `u` is `s` with the slot `G[k]` written. -/
abbrev WroteG (s : State) (k : Nat) (u : State) : Prop := ∃ v, TagFrom s v ∧ u = writeG k v s

/-- `u` is `s` with the slot `L[k]` written. -/
abbrev WroteL (s : State) (k : Nat) (u : State) : Prop := ∃ v, TagFrom s v ∧ u = writeL k v s

/-- `u` is `s` with the flags of a valid comparison written (R96). -/
abbrev WroteFlags (s u : State) : Prop :=
  ∃ f, (f &&& flagsMask = 0b001 ∨ f &&& flagsMask = 0b010 ∨ f &&& flagsMask = 0b100) ∧ u = writeFlags f s

/-- `u` is `s` with one event emitted. -/
abbrev Emitted (s u : State) : Prop := ∃ k w, u = emit k w s

/-- The writes of an instruction, `pc` apart: what R34's matrix gives it. -/
def WriteOf (i : Instr) (s u : State) : Prop :=
  match i with
  | .loadG o _ _ | .loadL o _ _ | .loadII32 o _ _ => WroteS s o.toNat u
  | .addI32 o _ _ | .addU32 o _ _ | .subI32 o _ _ | .mulI32 o _ _ | .divI32 o _ _ => WroteS s o.toNat u
  | .storeG _ a _ => WroteG s a.toNat u
  | .storeL _ a _ => WroteL s a.toNat u
  | .cmpI32 _ _ _ | .cmpU32 _ _ _ => WroteFlags s u
  | .printU32 _ _ _ | .printF32 _ _ _ | .printI32 _ _ _ => Emitted s u
  | .jmp _ _ _ | .jz _ _ _ | .jnz _ _ _ | .nop _ _ _ | .halt _ _ _ => u = s

/-- The two ways an instruction ends: an error with no effect (R78), or the commit of its write `W` and a successor, the
default one or a target in the loaded program (R73, R77, R99). -/
inductive Ends (s : State) (W : State → Prop) (r : Result) : Prop where
  | raised (e : Status) (he : e ≠ .ok) (h : r = raise e s)
  | committed (u : State) (target : Word) (hw : W u)
      (ht : target = s.pc + 10 ∨ target.toNat < s.programLen.toNat) (h : r = commit target u)

theorem tagFrom_mem {s : State} {v : TypedValue} (h : v ∈ s.globals ++ s.locals ++ s.stackVars) : TagFrom s v :=
  .inr ⟨v, h, rfl⟩

theorem mem_of_globals {s : State} {k : Nat} {v : TypedValue} (h : s.globals[k]? = some v) :
    v ∈ s.globals ++ s.locals ++ s.stackVars := by
  simp [List.mem_of_getElem? h]

theorem mem_of_locals {s : State} {k : Nat} {v : TypedValue} (h : s.locals[k]? = some v) :
    v ∈ s.globals ++ s.locals ++ s.stackVars := by
  simp [List.mem_of_getElem? h]

theorem mem_of_stackVars {s : State} {k : Nat} {v : TypedValue} (h : s.stackVars[k]? = some v) :
    v ∈ s.globals ++ s.locals ++ s.stackVars := by
  simp [List.mem_of_getElem? h]

/-- An arithmetic instruction without a check of its own (R87). -/
theorem binop_ends (t : Tag) (f : Word → Word → Word) (opd : Byte) (imm1 imm2 : Word) (s : State) :
    Ends s (WroteS s opd.toNat) (binop t f opd imm1 imm2 s) := by
  unfold binop
  rcases binopOperands_cases t opd imm1 imm2 s (fun x y => advance (writeS opd.toNat (.ofTag t (f x y)) s)) with
    ⟨v, w, hv, -, -, hvt, -, h⟩ | h | h
  · refine .committed _ _ ⟨_, .inr ⟨v, mem_of_stackVars hv, ?_⟩, rfl⟩ (.inl rfl) h
    rw [hvt]
    cases t <;> rfl
  · exact .raised _ (by decide) h
  · exact .raised _ (by decide) h

/-- A comparison (R95). -/
theorem compareSlots_ends (t : Tag) (lt : Word → Word → Bool) (imm1 imm2 : Word) (s : State)
    (hf : ∀ a b, cmpFlags lt a b &&& flagsMask = 0b001 ∨ cmpFlags lt a b &&& flagsMask = 0b010 ∨
      cmpFlags lt a b &&& flagsMask = 0b100) : Ends s (WroteFlags s) (compareSlots t lt imm1 imm2 s) := by
  unfold compareSlots
  rcases cmpOperands_cases t imm1 imm2 s (fun a b => advance (writeFlags (cmpFlags lt a b) s)) with
    ⟨v, w, -, -, -, -, h⟩ | h | h
  · exact .committed _ _ ⟨_, hf _ _, rfl⟩ (.inl rfl) h
  · exact .raised _ (by decide) h
  · exact .raised _ (by decide) h

/-- An output instruction (R106). -/
theorem printSlot_ends (t : Tag) (kind : EventKind) (imm1 : Word) (s : State) :
    Ends s (Emitted s) (printSlot t kind imm1 s) := by
  unfold printSlot
  rcases printOperand_cases t imm1 s (fun w => advance (emit kind w s)) with ⟨v, -, -, h⟩ | h | h
  · exact .committed _ _ ⟨_, _, rfl⟩ (.inl rfl) h
  · exact .raised _ (by decide) h
  · exact .raised _ (by decide) h

/-- A taken jump (R99). -/
theorem takeJump_ends (imm1 : Word) (s : State) : Ends s (· = s) (takeJump imm1 s) := by
  rcases takeJump_cases imm1 s with ⟨hlt, h⟩ | ⟨-, h⟩
  · exact .committed s imm1 rfl (.inr hlt) h
  · exact .raised _ (by decide) h

theorem advance_ends (s : State) : Ends s (· = s) (advance s) := .committed s _ rfl (.inl rfl) rfl

theorem execLoadG_ends (opd : Byte) (imm1 : Word) (s : State) : Ends s (WroteS s opd.toNat) (execLoadG opd imm1 s) := by
  unfold execLoadG
  rcases resolveG_cases imm1.toNat s (fun v => resolveS opd.toNat s fun _ => advance (writeS opd.toNat v s)) with
    ⟨v, hv, h⟩ | ⟨-, h⟩
  · rcases resolveS_cases opd.toNat s (fun _ => advance (writeS opd.toNat v s)) with ⟨_, -, h2⟩ | ⟨-, h2⟩
    · exact .committed _ _ ⟨v, tagFrom_mem (mem_of_globals hv), rfl⟩ (.inl rfl) (h.trans h2)
    · exact .raised _ (by decide) (h.trans h2)
  · exact .raised _ (by decide) h

theorem execLoadL_ends (opd : Byte) (imm1 : Word) (s : State) : Ends s (WroteS s opd.toNat) (execLoadL opd imm1 s) := by
  unfold execLoadL
  rcases resolveL_cases imm1.toNat s (fun v => resolveS opd.toNat s fun _ => advance (writeS opd.toNat v s)) with
    ⟨v, hv, h⟩ | ⟨-, h⟩
  · rcases resolveS_cases opd.toNat s (fun _ => advance (writeS opd.toNat v s)) with ⟨_, -, h2⟩ | ⟨-, h2⟩
    · exact .committed _ _ ⟨v, tagFrom_mem (mem_of_locals hv), rfl⟩ (.inl rfl) (h.trans h2)
    · exact .raised _ (by decide) (h.trans h2)
  · exact .raised _ (by decide) h

theorem execStoreG_ends (opd : Byte) (imm1 : Word) (s : State) :
    Ends s (WroteG s imm1.toNat) (execStoreG opd imm1 s) := by
  unfold execStoreG
  rcases resolveS_cases opd.toNat s (fun v => resolveG imm1.toNat s fun _ => advance (writeG imm1.toNat v s)) with
    ⟨v, hv, h⟩ | ⟨-, h⟩
  · rcases resolveG_cases imm1.toNat s (fun _ => advance (writeG imm1.toNat v s)) with ⟨_, -, h2⟩ | ⟨-, h2⟩
    · exact .committed _ _ ⟨v, tagFrom_mem (mem_of_stackVars hv), rfl⟩ (.inl rfl) (h.trans h2)
    · exact .raised _ (by decide) (h.trans h2)
  · exact .raised _ (by decide) h

theorem execStoreL_ends (opd : Byte) (imm1 : Word) (s : State) :
    Ends s (WroteL s imm1.toNat) (execStoreL opd imm1 s) := by
  unfold execStoreL
  rcases resolveS_cases opd.toNat s (fun v => resolveL imm1.toNat s fun _ => advance (writeL imm1.toNat v s)) with
    ⟨v, hv, h⟩ | ⟨-, h⟩
  · rcases resolveL_cases imm1.toNat s (fun _ => advance (writeL imm1.toNat v s)) with ⟨_, -, h2⟩ | ⟨-, h2⟩
    · exact .committed _ _ ⟨v, tagFrom_mem (mem_of_stackVars hv), rfl⟩ (.inl rfl) (h.trans h2)
    · exact .raised _ (by decide) (h.trans h2)
  · exact .raised _ (by decide) h

theorem execLoadII32_ends (opd : Byte) (imm1 : Word) (s : State) :
    Ends s (WroteS s opd.toNat) (execLoadII32 opd imm1 s) := by
  unfold execLoadII32
  rcases resolveS_cases opd.toNat s (fun _ => advance (writeS opd.toNat (.i32 imm1) s)) with ⟨_, -, h⟩ | ⟨-, h⟩
  · exact .committed _ _ ⟨_, .inl rfl, rfl⟩ (.inl rfl) h
  · exact .raised _ (by decide) h

theorem execDivI32_ends (opd : Byte) (imm1 imm2 : Word) (s : State) :
    Ends s (WroteS s opd.toNat) (execDivI32 opd imm1 imm2 s) := by
  unfold execDivI32
  rcases binopOperands_cases .i32 opd imm1 imm2 s (fun x y =>
      if asI32 y = 0 then raise .errDivByZero s
      else advance (writeS opd.toNat (.i32 (divI32 s.params.divOvfResult x y)) s)) with
    ⟨v, w, -, -, -, -, -, h⟩ | h | h
  · split at h
    · exact .raised _ (by decide) h
    · exact .committed _ _ ⟨_, .inl rfl, rfl⟩ (.inl rfl) h
  · exact .raised _ (by decide) h
  · exact .raised _ (by decide) h

/-- Every instruction ends in one of the two ways, with the write R34 gives it. -/
theorem exec_ends (i : Instr) (s : State) : Ends s (WriteOf i s) (exec i s) := by
  cases i with
  | nop => exact advance_ends s
  | halt => exact .raised _ (by decide) rfl
  | loadG o a => exact execLoadG_ends o a s
  | loadL o a => exact execLoadL_ends o a s
  | storeG o a => exact execStoreG_ends o a s
  | storeL o a => exact execStoreL_ends o a s
  | loadII32 o a => exact execLoadII32_ends o a s
  | addI32 o a b => exact binop_ends .i32 addI32 o a b s
  | addU32 o a b => exact binop_ends .u32 addU32 o a b s
  | subI32 o a b => exact binop_ends .i32 subI32 o a b s
  | mulI32 o a b => exact binop_ends .i32 mulI32 o a b s
  | divI32 o a b => exact execDivI32_ends o a b s
  | cmpI32 o a b => exact compareSlots_ends .i32 ltI32 a b s cmpFlags_ltI32
  | cmpU32 o a b => exact compareSlots_ends .u32 ltU32 a b s cmpFlags_ltU32
  | jmp o a => exact takeJump_ends a s
  | jz o a =>
    change Ends s (· = s) (if zeroFlag s then takeJump a s else advance s)
    split
    · exact takeJump_ends a s
    · exact advance_ends s
  | jnz o a =>
    change Ends s (· = s) (if zeroFlag s then advance s else takeJump a s)
    split
    · exact advance_ends s
    · exact takeJump_ends a s
  | printU32 o a => exact printSlot_ends .u32 .u32 a s
  | printF32 o a => exact printSlot_ends .float .f32 a s
  | printI32 o a => exact printSlot_ends .i32 .i32 a s

/-- As `exec_ends`, for a next state. -/
theorem exec_next_cases (i : Instr) (s t : State) (h : exec i s = .next t) :
    (∃ e, e ≠ .ok ∧ t = { s with stepStatus := e }) ∨
    ∃ u target, WriteOf i s u ∧ (target = s.pc + 10 ∨ target.toNat < s.programLen.toNat) ∧
      t = { u with pc := target, stepStatus := .ok } := by
  cases exec_ends i s with
  | raised e he hr => exact .inl ⟨e, he, Host.Outcome.next.inj (h.symm.trans hr)⟩
  | committed u target hw ht hr => exact .inr ⟨u, target, hw, ht, Host.Outcome.next.inj (h.symm.trans hr)⟩

end Sys2Proof.Machine
end

