-- ==== Sys2Proof/Laws/Memory.lean ====
section
/-! SUPPORT. The laws of byte memories: a read after a write, and that every operation keeps the canonical form and the
size. -/

namespace Sys2Proof.Machine

@[simp] theorem Memory.read_nil (a : Nat) : Memory.read [] a = Memory.unlisted := rfl

/-- An offset below every listed one reads as unlisted. -/
theorem Memory.read_of_lt (m : Memory) (a : Nat) (h : ∀ c ∈ m, a < c.1) : m.read a = Memory.unlisted := by
  induction m with
  | nil => rfl
  | cons c m ih =>
    have hc := h c (by simp)
    have : c.1 ≠ a := by omega
    simp only [Memory.read, this, if_false]
    exact ih fun d hd => h d (by simp [hd])

theorem Memory.read_put (m : Memory) (a b : Nat) (v : Byte) (h : ∀ c ∈ m, a < c.1) :
    (Memory.put a v m).read b = if b = a then v else m.read b := by
  unfold Memory.put
  split
  · next hv =>
    split
    · next hb => rw [hb, Memory.read_of_lt m a h, hv]
    · rfl
  · simp only [Memory.read, eq_comm (a := a)]

/-- A read after a write: the written byte there, every other byte as it was. -/
theorem Memory.read_write (m : Memory) (a b : Nat) (v : Byte) (hm : m.wf) :
    (m.write a v).read b = if b = a then v else m.read b := by
  induction m with
  | nil => simp [Memory.write, Memory.read_put]
  | cons c m ih =>
    obtain ⟨k, x⟩ := c
    obtain ⟨hp, hz⟩ := hm
    have hp' := List.pairwise_cons.mp hp
    have hm' : Memory.wf m := ⟨hp'.2, fun d hd => hz d (by simp [hd])⟩
    simp only [Memory.write]
    split
    · next hlt =>
      refine Memory.read_put _ _ _ _ fun d hd => ?_
      rcases List.mem_cons.mp hd with rfl | hd
      · exact hlt
      · exact lt_trans hlt (hp'.1 d hd)
    · next hge =>
      split
      · next heq =>
        subst heq
        rw [Memory.read_put m a b v fun d hd => hp'.1 d hd]
        split
        · rfl
        · next hne => simp [Memory.read, Ne.symm hne]
      · next hne =>
        simp only [Memory.read]
        split
        · next hkb =>
          have : b ≠ a := by omega
          simp [this]
        · exact ih hm'

/-- What a write can list: the written cell, or a cell listed before at another offset. -/
theorem Memory.mem_write (m : Memory) (a : Nat) (v : Byte) (c : Host.Cell) (h : c ∈ m.write a v) :
    (c = (a, v) ∧ v ≠ Memory.unlisted) ∨ c ∈ m := by
  have put_case (m : Memory) (h : c ∈ Memory.put a v m) : (c = (a, v) ∧ v ≠ Memory.unlisted) ∨ c ∈ m := by
    unfold Memory.put at h
    split at h
    · exact .inr h
    · next hv => exact (List.mem_cons.mp h).imp (⟨·, hv⟩) id
  induction m with
  | nil => exact put_case [] h
  | cons d m ih =>
    simp only [Memory.write] at h
    split at h
    · exact put_case _ h
    · split at h
      · exact (put_case _ h).imp id (List.mem_cons_of_mem _)
      · rcases List.mem_cons.mp h with rfl | h
        · exact .inr (by simp)
        · exact (ih h).imp id (List.mem_cons_of_mem _)

theorem Memory.wf_write (m : Memory) (a : Nat) (v : Byte) (hm : m.wf) : (m.write a v).wf := by
  refine ⟨?_, fun c hc => ?_⟩
  · have put_case (m : Memory) (hp : m.Pairwise fun c d => c.1 < d.1) (h : ∀ c ∈ m, a < c.1) :
        (Memory.put a v m).Pairwise fun c d => c.1 < d.1 := by
      unfold Memory.put
      split
      · exact hp
      · exact List.pairwise_cons.mpr ⟨h, hp⟩
    obtain ⟨hp, -⟩ := hm
    induction m with
    | nil => exact put_case [] hp (by simp)
    | cons d m ih =>
      have hp' := List.pairwise_cons.mp hp
      simp only [Memory.write]
      split
      · next hlt =>
        refine put_case _ hp fun e he => ?_
        rcases List.mem_cons.mp he with rfl | he
        · exact hlt
        · exact lt_trans hlt (hp'.1 e he)
      · split
        · next heq => exact put_case _ hp'.2 (heq ▸ hp'.1)
        · next hge hne =>
          refine List.pairwise_cons.mpr ⟨fun e he => ?_, ih hp'.2⟩
          rcases Memory.mem_write m a v e he with ⟨rfl, -⟩ | he
          · change d.1 < a
            omega
          · exact hp'.1 e he
  · rcases Memory.mem_write m a v c hc with ⟨rfl, hv⟩ | hc
    · exact hv
    · exact hm.2 c hc

theorem Memory.below_write (m : Memory) (a n : Nat) (v : Byte) (hm : m.below n) (ha : a < n) :
    (m.write a v).below n := fun c hc => by
  rcases Memory.mem_write m a v c hc with ⟨rfl, -⟩ | hc
  · exact ha
  · exact hm c hc

theorem Memory.wf_writeBytes (bs : List Byte) (m : Memory) (a : Nat) (hm : m.wf) : (m.writeBytes a bs).wf := by
  induction bs generalizing m a with
  | nil => exact hm
  | cons v vs ih => exact ih _ _ (Memory.wf_write m a v hm)

theorem Memory.below_writeBytes (bs : List Byte) (m : Memory) (a n : Nat) (hm : m.below n) (ha : a + bs.length ≤ n) :
    (m.writeBytes a bs).below n := by
  induction bs generalizing m a with
  | nil => exact hm
  | cons v vs ih =>
    simp only [List.length_cons] at ha
    exact ih _ _ (Memory.below_write m a n v hm (by omega)) (by omega)

/-- A read after writing consecutive bytes. -/
theorem Memory.read_writeBytes (bs : List Byte) (m : Memory) (a b : Nat) (hm : m.wf) :
    (m.writeBytes a bs).read b = if a ≤ b then (bs[b - a]?).getD (m.read b) else m.read b := by
  induction bs generalizing m a with
  | nil => simp [Memory.writeBytes]
  | cons v vs ih =>
    simp only [Memory.writeBytes]
    rw [ih _ _ (Memory.wf_write m a v hm), Memory.read_write m a b v hm]
    rcases lt_trichotomy b a with h | h | h
    · have h1 : ¬ a + 1 ≤ b := by omega
      have h2 : ¬ a ≤ b := by omega
      have h3 : b ≠ a := by omega
      simp [h1, h2, h3]
    · subst h
      have h1 : ¬ b + 1 ≤ b := by omega
      simp [h1]
    · have h1 : a + 1 ≤ b := by omega
      have h2 : a ≤ b := by omega
      have h3 : b ≠ a := by omega
      have h4 : b - a = (b - (a + 1)) + 1 := by omega
      simp [h1, h2, h3, h4]

/-- The memory of a freshly initialised build is in canonical form. -/
theorem init_program_wf (p : Params) : (State.init p).program.wf := ⟨List.Pairwise.nil, by simp [State.init]⟩

theorem reset_program_wf : State.reset.program.wf := init_program_wf Params.rc

/-! ## Fetching bytes -/

theorem readProgram_eq_some (a : Nat) (s : State) (h : a < s.params.programMaxSize) :
    readProgram a s = some (s.program.read a) := by
  simp [readProgram, h]

/-- Bytes inside program memory read as the list of the bytes at ascending offsets. -/
theorem readProgramBytes_eq_some (n a : Nat) (s : State) (h : a + n ≤ s.params.programMaxSize) :
    readProgramBytes n a s = some ((List.range n).map fun k => s.program.read (a + k)) := by
  induction n generalizing a with
  | zero => rfl
  | succ n ih =>
    have h2 := ih (a + 1) (by omega)
    simp only [readProgramBytes, readProgram_eq_some a s (by omega), h2]
    rw [List.range_succ_eq_map]
    simp [Function.comp_def, Nat.add_comm, Nat.add_left_comm]

/-- A read of program bytes depends on the size and on the bytes read alone. -/
theorem readProgramBytes_congr (n a : Nat) (s t : State) (hp : s.params = t.params)
    (hr : ∀ k, k < n → s.program.read (a + k) = t.program.read (a + k)) :
    readProgramBytes n a s = readProgramBytes n a t := by
  induction n generalizing a with
  | zero => rfl
  | succ n ih =>
    have h0 := hr 0 (by omega)
    have h2 := ih (a + 1) fun k hk => by simpa [Nat.add_assoc, Nat.add_comm 1] using hr (k + 1) (by omega)
    simp only [Nat.add_zero] at h0
    simp only [readProgramBytes, readProgram, hp, h0, h2]

end Sys2Proof.Machine
end

