-- ==== Sys2Proof/Laws/PerInstr.lean ====
section
/-! SUPPORT. Families of facts about every instruction, one lemma per constructor of `Instr`. -/

namespace Sys2Proof.Laws

/-- Every instruction is `INSTR_SIZE` bytes long and its first byte is its opcode's, in every build (R53, R55). -/
abbrev EncodingShape.Statement (i : Instr) : Prop :=
  ∀ (m : OpcodeMap) (e : Endian),
    (encode m e i).length = instrSize ∧ (encode m e i).head? = some (m.byteOf i.opcode)

theorem bytesOfWord_length (e : Endian) (w : Word) : (bytesOfWord e w).length = 4 := by cases e <;> rfl

/-- The encoding of a record has the shape. -/
theorem encodingShape_of_record (i : Instr) : EncodingShape.Statement i := fun m e => by
  simp [encode, bytesOfWord_length, Instr.opcode]

theorem EncodingShape.nop (o : Byte) (a b : Word) : EncodingShape.Statement (.nop o a b) := encodingShape_of_record _
theorem EncodingShape.halt (o : Byte) (a b : Word) : EncodingShape.Statement (.halt o a b) := encodingShape_of_record _
theorem EncodingShape.loadG (o : Byte) (a b : Word) : EncodingShape.Statement (.loadG o a b) := encodingShape_of_record _
theorem EncodingShape.loadL (o : Byte) (a b : Word) : EncodingShape.Statement (.loadL o a b) := encodingShape_of_record _
theorem EncodingShape.storeG (o : Byte) (a b : Word) : EncodingShape.Statement (.storeG o a b) := encodingShape_of_record _
theorem EncodingShape.storeL (o : Byte) (a b : Word) : EncodingShape.Statement (.storeL o a b) := encodingShape_of_record _
theorem EncodingShape.loadII32 (o : Byte) (a b : Word) : EncodingShape.Statement (.loadII32 o a b) := encodingShape_of_record _
theorem EncodingShape.addI32 (o : Byte) (a b : Word) : EncodingShape.Statement (.addI32 o a b) := encodingShape_of_record _
theorem EncodingShape.addU32 (o : Byte) (a b : Word) : EncodingShape.Statement (.addU32 o a b) := encodingShape_of_record _
theorem EncodingShape.subI32 (o : Byte) (a b : Word) : EncodingShape.Statement (.subI32 o a b) := encodingShape_of_record _
theorem EncodingShape.mulI32 (o : Byte) (a b : Word) : EncodingShape.Statement (.mulI32 o a b) := encodingShape_of_record _
theorem EncodingShape.divI32 (o : Byte) (a b : Word) : EncodingShape.Statement (.divI32 o a b) := encodingShape_of_record _
theorem EncodingShape.cmpI32 (o : Byte) (a b : Word) : EncodingShape.Statement (.cmpI32 o a b) := encodingShape_of_record _
theorem EncodingShape.cmpU32 (o : Byte) (a b : Word) : EncodingShape.Statement (.cmpU32 o a b) := encodingShape_of_record _
theorem EncodingShape.jmp (o : Byte) (a b : Word) : EncodingShape.Statement (.jmp o a b) := encodingShape_of_record _
theorem EncodingShape.jz (o : Byte) (a b : Word) : EncodingShape.Statement (.jz o a b) := encodingShape_of_record _
theorem EncodingShape.jnz (o : Byte) (a b : Word) : EncodingShape.Statement (.jnz o a b) := encodingShape_of_record _
theorem EncodingShape.printU32 (o : Byte) (a b : Word) : EncodingShape.Statement (.printU32 o a b) := encodingShape_of_record _
theorem EncodingShape.printF32 (o : Byte) (a b : Word) : EncodingShape.Statement (.printF32 o a b) := encodingShape_of_record _
theorem EncodingShape.printI32 (o : Byte) (a b : Word) : EncodingShape.Statement (.printI32 o a b) := encodingShape_of_record _

end Sys2Proof.Laws
end

