-- ==== Sys2Proof/Laws/Render.lean ====
section
/-! SUPPORT. The pieces of the text of an event: a digit, a fixed count of digits, and rounding to nearest. -/

namespace Sys2Proof.Machine

theorem digitChar_isDigit (d : Nat) : (digitChar d).isDigit = true := by
  have all : ∀ k < 10, (Char.ofNat (48 + k)).isDigit = true := by
    intro k hk
    interval_cases k <;> simp
  exact all (d % 10) (Nat.mod_lt _ (by decide))

theorem digitChar_value (d : Nat) : (digitChar d).toNat - 48 = d % 10 := by
  have all : ∀ k < 10, (Char.ofNat (48 + k)).toNat - 48 = k := by
    intro k hk
    interval_cases k <;> simp
  exact all (d % 10) (Nat.mod_lt _ (by decide))

theorem decimalValue_append (ds : List Char) (c : Char) :
    decimalValue (ds ++ [c]) = 10 * decimalValue ds + (c.toNat - 48) := by
  simp [decimalValue]

/-- A fixed count of digits: its length, that they are digits, and what they stand for. -/
theorem paddedText_spec (k n : Nat) :
    (paddedText k n).length = k ∧ (∀ c ∈ paddedText k n, c.isDigit = true) ∧
    decimalValue (paddedText k n) = n % 10 ^ k := by
  induction k generalizing n with
  | zero => simp [paddedText, decimalValue, Nat.mod_one]
  | succ k ih =>
    obtain ⟨hlen, hdig, hval⟩ := ih (n / 10)
    refine ⟨by simp [paddedText, hlen], fun c hc => ?_, ?_⟩
    · rcases List.mem_append.1 hc with hc | hc
      · exact hdig c hc
      · rw [List.mem_singleton.1 hc]
        exact digitChar_isDigit n
    · rw [paddedText, decimalValue_append, hval, digitChar_value, pow_succ, Nat.mul_comm (10 ^ k) 10, Nat.mod_mul]
      omega

/-- The rounded quotient is within a half of the exact one, whichever way ties go. -/
theorem roundNearest_spec (n d : Nat) (tie : Bool) (hd : 0 < d) :
    2 * ((roundNearest n d tie * d : Nat) - (n : Nat) : Int).natAbs ≤ d := by
  have hdm := Nat.div_add_mod n d
  have hlt := Nat.mod_lt n hd
  unfold roundNearest
  generalize n / d = q at *
  generalize n % d = r at *
  have hcomm : d * q = q * d := Nat.mul_comm _ _
  have hsucc : (q + 1) * d = q * d + d := by ring
  split
  · rw [hsucc]
    omega
  · omega

end Sys2Proof.Machine
end

