-- ==== Sys2Proof/Laws/Step.lean ====
section
/-! SUPPORT. What a step can do: the fetch's outcomes, and the step by what the fetch finds. -/

namespace Sys2Proof.Machine

/-- The bytes at `pc` of an instruction in the loaded program exist. -/
theorem readProgramBytes_atPc (s : State) (hp : ProgramFits s) (hi : InProgram s) :
    readProgramBytes instrSize s.pc.toNat s = some (bytesAtPc s) :=
  readProgramBytes_eq_some _ _ s (Nat.le_trans hi hp.2.2)

/-- The fetch of an instruction that is there. -/
theorem fetch_of_fetches (s : State) (i : Instr) (hp : ProgramFits s) (hf : Fetches s i) : fetch s = .instr i := by
  have h2 := hf.2
  simp only [fetch, hf.1, if_true, readProgramBytes_atPc s hp hf.1, h2]

theorem fetch_of_overrun (s : State) (h : ¬ InProgram s) : fetch s = .overrun := by
  simp only [fetch, h, if_false]

/-- A fetch inside program memory finds a byte for every offset. -/
theorem fetch_ne_absent (s : State) (hp : ProgramFits s) : fetch s ≠ .absentByte := by
  by_cases hi : InProgram s
  · simp only [fetch, hi, if_true, readProgramBytes_atPc s hp hi]
    split <;> simp
  · simp [fetch_of_overrun s hi]

/-- An instruction is fetched from inside the loaded program. -/
theorem inProgram_of_fetch (s : State) (i : Instr) (h : fetch s = .instr i) : InProgram s := by
  by_contra hn
  simp [fetch_of_overrun s hn] at h

/-- The four ways of a step. -/
theorem step_cases (s : State) :
    (∃ i, fetch s = .instr i ∧ InProgram s ∧ step s = exec i s) ∨
    step s = raise .errInvalidInstruction s ∨ step s = raise .errInvalidOpcode s ∨
    (fetch s = .absentByte ∧ step s = .fault .absentProgramByte) := by
  unfold step
  cases h : fetch s with
  | instr i => exact .inl ⟨i, rfl, inProgram_of_fetch s i h, rfl⟩
  | overrun => exact .inr (.inl rfl)
  | illegalOpcode => exact .inr (.inr (.inl rfl))
  | absentByte => exact .inr (.inr (.inr ⟨rfl, rfl⟩))

/-- All a step can do: an error that changes nothing but the status returned (R78), or the fetched instruction's write
(R34) and a successor (R73, R77, R99), status OK. -/
theorem step_next_cases (s t : State) (h : step s = .next t) :
    (∃ e, e ≠ .ok ∧ t = { s with stepStatus := e }) ∨
    ∃ i u target, fetch s = .instr i ∧ InProgram s ∧ WriteOf i s u ∧
      (target = s.pc + 10 ∨ target.toNat < s.programLen.toNat) ∧ t = { u with pc := target, stepStatus := .ok } := by
  rcases step_cases s with ⟨i, hf, hi, he⟩ | he | he | ⟨-, he⟩
  · rw [he] at h
    rcases exec_next_cases i s t h with h | ⟨u, tg, hw, ht, rfl⟩
    · exact .inl h
    · exact .inr ⟨i, u, tg, hf, hi, hw, ht, rfl⟩
  · rw [he] at h; exact .inl ⟨_, by decide, (Host.Outcome.next.inj h).symm⟩
  · rw [he] at h; exact .inl ⟨_, by decide, (Host.Outcome.next.inj h).symm⟩
  · rw [he] at h; cases h

end Sys2Proof.Machine
end

