-- ==== Sys2Proof/Tests/Slice0.lean ====
section
/-! SUPPORT. The model's own tests, and a witness for the hypotheses of every obligation that has some. The expected
values of the tests are those of spec/95_test_vectors.md (the vector is named in each docstring) or of the rule named
there. -/

namespace Sys2Proof.Tests

open Sys2Proof Sys2Proof.Machine

/-! ## Well-formedness: an ill-formed term for each check -/

theorem test_wf_rc : Params.rc.wf := by constructor <;> decide

theorem test_wf_program_too_small : ¬ Params.wf { Params.rc with programMaxSize := 9 } :=
  fun h => absurd h.programMaxSize_ge (by decide)

theorem test_wf_program_too_large : ¬ Params.wf { Params.rc with programMaxSize := 2 ^ 32 - 10 } :=
  fun h => absurd h.programMaxSize_le (by decide)

theorem test_wf_no_globals : ¬ Params.wf { Params.rc with gVarsCount := 0 } :=
  fun h => absurd h.gVarsCount_ge (by decide)

theorem test_wf_too_many_globals : ¬ Params.wf { Params.rc with gVarsCount := 257 } :=
  fun h => absurd h.gVarsCount_le (by decide)

theorem test_wf_no_locals : ¬ Params.wf { Params.rc with stackLocalsCount := 0 } :=
  fun h => absurd h.stackLocalsCount_ge (by decide)

theorem test_wf_too_many_locals : ¬ Params.wf { Params.rc with stackLocalsCount := 257 } :=
  fun h => absurd h.stackLocalsCount_le (by decide)

theorem test_wf_no_stackVars : ¬ Params.wf { Params.rc with stackVarCount := 0 } :=
  fun h => absurd h.stackVarCount_ge (by decide)

theorem test_wf_too_many_stackVars : ¬ Params.wf { Params.rc with stackVarCount := 257 } :=
  fun h => absurd h.stackVarCount_le (by decide)

theorem test_wf_too_many_buffers : ¬ Params.wf { Params.rc with gMembufCount := 257 } :=
  fun h => absurd h.gMembufCount_le (by decide)

/-- HALT at NOP's byte: the map is not injective (R60). -/
theorem test_wf_map_not_injective : ¬ OpcodeMap.wf { OpcodeMap.default with halt := 0x00 } := by decide

/-- 0x15 is no opcode of the default map (R61). -/
theorem test_wf_unassigned_byte : OpcodeMap.default.assigns 0x15 = false := by decide

/-- No instruction is ill formed (R62). -/
theorem test_wf_every_instruction (i : Instr) : i.wf = true := by cases i <;> rfl

/-! ## Decoding: words written out from R54 to R60 -/

/-- T76: NOP with every other bit 1. -/
theorem test_decode_nop : decode .default .little [0x00, 0xFF, 0xFF, 0xFF, 0xFF, 0xFF, 0xFF, 0xFF, 0xFF, 0xFF] =
    .ok (.nop 0xFF 0xFFFFFFFF 0xFFFFFFFF) := by rfl

/-- T77. -/
theorem test_decode_halt : decode .default .little [0x01, 0, 0, 0, 0, 0, 0, 0, 0, 0] = .ok (.halt 0 0 0) := by rfl

/-- T3. -/
theorem test_decode_loadG : decode .default .little [0x10, 0x01, 0x1F, 0, 0, 0, 0, 0, 0, 0] = .ok (.loadG 1 31 0) := by
  rfl

/-- T5. -/
theorem test_decode_loadL : decode .default .little [0x11, 0, 0x0F, 0, 0, 0, 0, 0, 0, 0] = .ok (.loadL 0 15 0) := by rfl

/-- T26. -/
theorem test_decode_storeG : decode .default .little [0x12, 1, 3, 0, 0, 0, 0, 0, 0, 0] = .ok (.storeG 1 3 0) := by rfl

/-- T27. -/
theorem test_decode_storeL : decode .default .little [0x13, 4, 0x0F, 0, 0, 0, 0, 0, 0, 0] = .ok (.storeL 4 15 0) := by
  rfl

/-- T32. -/
theorem test_decode_loadII32 : decode .default .little [0x14, 3, 5, 0, 0, 0, 0xEF, 0xBE, 0xAD, 0xDE] =
    .ok (.loadII32 3 5 0xDEADBEEF) := by rfl

/-- T35. -/
theorem test_decode_addI32 : decode .default .little [0x20, 2, 0, 1, 0, 0, 1, 0xFF, 0xFF, 0xFF] =
    .ok (.addI32 2 0x100 0xFFFFFF01) := by rfl

/-- T17. -/
theorem test_decode_addU32 : decode .default .little [0x21, 2, 0, 0, 0, 0, 1, 0, 0, 0] = .ok (.addU32 2 0 1) := by rfl

/-- T40. -/
theorem test_decode_subI32 : decode .default .little [0x22, 2, 0, 0, 0, 0, 1, 0, 0, 0] = .ok (.subI32 2 0 1) := by rfl

/-- T43. -/
theorem test_decode_mulI32 : decode .default .little [0x23, 2, 0, 0, 0, 0, 1, 0, 0, 0] = .ok (.mulI32 2 0 1) := by rfl

/-- T50. -/
theorem test_decode_divI32 : decode .default .little [0x24, 0x40, 0, 0, 0, 0, 1, 0, 0, 0] = .ok (.divI32 64 0 1) := by
  rfl

/-- T58. -/
theorem test_decode_cmpI32 : decode .default .little [0x30, 0xFF, 0, 0, 0, 0, 1, 0, 0, 0] = .ok (.cmpI32 255 0 1) := by
  rfl

/-- T53. -/
theorem test_decode_cmpU32 : decode .default .little [0x31, 0, 0, 0, 0, 0, 1, 0, 0, 0] = .ok (.cmpU32 0 0 1) := by rfl

/-- T13. -/
theorem test_decode_jmp : decode .default .little [0x40, 0, 0x3C, 0, 0, 0, 0, 0, 0, 0] = .ok (.jmp 0 60 0) := by rfl

/-- T62. -/
theorem test_decode_jz : decode .default .little [0x41, 0, 0xC8, 0, 0, 0, 0, 0, 0, 0] = .ok (.jz 0 200 0) := by rfl

/-- T65. -/
theorem test_decode_jnz : decode .default .little [0x42, 0, 7, 0, 0, 0, 0, 0, 0, 0] = .ok (.jnz 0 7 0) := by rfl

/-- T68. -/
theorem test_decode_printU32 : decode .default .little [0x50, 0, 3, 0, 0, 0, 0, 0, 0, 0] = .ok (.printU32 0 3 0) := by
  rfl

/-- T70. -/
theorem test_decode_printF32 : decode .default .little [0x51, 0, 0, 0, 0, 0, 0, 0, 0, 0] = .ok (.printF32 0 0 0) := by
  rfl

/-- T72. -/
theorem test_decode_printI32 : decode .default .little [0x52, 0, 0xFF, 1, 0, 0, 0, 0, 0, 0] =
    .ok (.printI32 0 0x1FF 0) := by rfl

/-- P6: the first instruction of P1 under a big-endian block. -/
theorem test_decode_big : decode .default .big [0x14, 0, 0, 0, 0, 5, 0, 0, 0, 0] = .ok (.loadII32 0 5 0) := by rfl

/-- P6: the same bytes under a little-endian block. -/
theorem test_decode_big_as_little :
    decode .default .little [0x14, 0, 0, 0, 0, 5, 0, 0, 0, 0] = .ok (.loadII32 0 0x05000000 0) := by rfl

/-- T79. -/
theorem test_decode_unassigned :
    decode .default .little [0x02, 0, 0, 0, 0, 0, 0, 0, 0, 0] = .error (.unassignedOpcode 0x02) := by rfl

/-- Nine bytes are no instruction (R53). -/
theorem test_decode_truncated : decode .default .little [0x01, 0, 0, 0, 0, 0, 0, 0, 0] = .error .truncated := by rfl

/-- T31's word, numbered as the opcode table numbers it. -/
theorem test_decodeTableWord : decodeTableWord 80 0xFFFFFFF90014 = some (.loadII32 0 0xFFFFFFF9 0) := by decide

/-! ## One step -/

/-- The default start state of spec/95_test_vectors.md: INIT of RC, a program at offset 0, some S slots set. -/
def start (program : List Byte) (slots : List (Nat × TypedValue)) : State :=
  { State.reset with
    program := Memory.writeBytes [] 0 program
    programLen := BitVec.ofNat 32 program.length
    stackVars := slots.foldl (fun bank c => bank.set c.1 c.2) State.reset.stackVars }

/-- One step answers a next state with this status and `pc`, of which `p` holds. -/
def stepsTo (s : State) (st : Status) (pc : Word) (p : State → Bool) : Bool :=
  match step s with
  | .next t => t.stepStatus == st && t.pc == pc && p t
  | .fault _ => false
  | .refused _ => false

/-- One step raises this error and changes nothing else. -/
def stepFails (s : State) (st : Status) : Bool :=
  stepsTo s st s.pc fun t => t == { s with stepStatus := st }

/-- Fifty bytes of NOP, after an instruction: the programs of the jump vectors. -/
def padded (instr : List Byte) : List Byte := instr ++ List.replicate 50 0

/-- T76. -/
theorem test_nop : stepsTo { start (List.replicate 20 0 ++ [0] ++ List.replicate 9 0xFF) [] with pc := 20 } .ok 30
    (fun t => t.stackVars == State.reset.stackVars) = true := by decide

/-- T77. -/
theorem test_halt : stepFails { start (List.replicate 50 0 ++ [1] ++ List.replicate 9 0) [] with pc := 50 } .errHalt =
    true := by decide

/-- T1: the last valid index; VOID is copied. -/
theorem test_loadG_void : stepsTo (start [0x10, 0x3F, 0, 0, 0, 0, 0, 0, 0, 0] [(63, .i32 1)]) .ok 10
    (fun t => t.stackVars[63]? == some .void) = true := by decide

/-- T25: a G index is not masked, and the source's error comes first. -/
theorem test_loadG_order :
    stepFails (start [0x10, 0x40, 0, 1, 0, 0, 0, 0, 0, 0] []) .errInvalidGlobalIdx = true := by decide

/-- T5. -/
theorem test_loadL : stepsTo { start [0x11, 0, 0x0F, 0, 0, 0, 0, 0, 0, 0] [] with
    locals := State.reset.locals.set 15 (.u32 9) } .ok 10 (fun t => t.stackVars[0]? == some (.u32 9)) = true := by decide

/-- T6. -/
theorem test_loadL_index : stepFails (start [0x11, 0, 0x10, 0, 0, 0, 0, 0, 0, 0] []) .errInvalidLocalIdx = true := by
  decide

/-- T26. -/
theorem test_storeG : stepsTo (start [0x12, 1, 3, 0, 0, 0, 0, 0, 0, 0] [(1, .i32 9)]) .ok 10
    (fun t => t.globals[3]? == some (.i32 9) && t.stackVars[1]? == some (.i32 9)) = true := by decide

/-- T28: the source is the stack var, so its error comes first. -/
theorem test_storeG_order :
    stepFails (start [0x12, 0x40, 0x20, 0, 0, 0, 0, 0, 0, 0] []) .errInvalidStackVarIdx = true := by decide

/-- T27. -/
theorem test_storeL : stepsTo (start [0x13, 4, 0x0F, 0, 0, 0, 0, 0, 0, 0] [(4, .u32 9)]) .ok 10
    (fun t => t.locals[15]? == some (.u32 9)) = true := by decide

/-- T29. -/
theorem test_storeL_index : stepFails (start [0x13, 0, 0x10, 0, 0, 0, 0, 0, 0, 0] []) .errInvalidLocalIdx = true := by
  decide

/-- T31. -/
theorem test_loadII32 : stepsTo (start [0x14, 0, 0xF9, 0xFF, 0xFF, 0xFF, 0, 0, 0, 0] []) .ok 10
    (fun t => t.stackVars[0]? == some (.i32 0xFFFFFFF9)) = true := by decide

/-- T2. -/
theorem test_loadII32_index :
    stepFails (start [0x14, 0x40, 5, 0, 0, 0, 0, 0, 0, 0] []) .errInvalidStackVarIdx = true := by decide

/-- T35: masked indices. -/
theorem test_addI32 : stepsTo (start [0x20, 2, 0, 1, 0, 0, 1, 0xFF, 0xFF, 0xFF] [(0, .i32 5), (1, .i32 1)]) .ok 10
    (fun t => t.stackVars[2]? == some (.i32 6)) = true := by decide

/-- T38: the bad destination comes before the VOID source. -/
theorem test_addI32_order :
    stepFails (start [0x20, 0x40, 0, 0, 0, 0, 1, 0, 0, 0] [(0, .i32 5)]) .errInvalidStackVarIdx = true := by decide

/-- T17. -/
theorem test_addU32 : stepsTo (start [0x21, 2, 0, 0, 0, 0, 1, 0, 0, 0] [(0, .u32 0xFFFFFFFF), (1, .u32 1)]) .ok 10
    (fun t => t.stackVars[2]? == some (.u32 0)) = true := by decide

/-- T39. -/
theorem test_addU32_type :
    stepFails (start [0x21, 2, 0, 0, 0, 0, 1, 0, 0, 0] [(0, .i32 1), (1, .i32 1)]) .errTypeMismatch = true := by decide

/-- T41: the order is src1 - src2. -/
theorem test_subI32 : stepsTo (start [0x22, 2, 0, 0, 0, 0, 1, 0, 0, 0] [(0, .i32 3), (1, .i32 5)]) .ok 10
    (fun t => t.stackVars[2]? == some (.i32 0xFFFFFFFE)) = true := by decide

/-- T40. -/
theorem test_subI32_wrap : stepsTo (start [0x22, 2, 0, 0, 0, 0, 1, 0, 0, 0] [(0, .i32 0x80000000), (1, .i32 1)]) .ok 10
    (fun t => t.stackVars[2]? == some (.i32 0x7FFFFFFF)) = true := by decide

/-- T42. -/
theorem test_mulI32 : stepsTo (start [0x23, 2, 0, 0, 0, 0, 0, 0, 0, 0] [(0, .i32 0x10000)]) .ok 10
    (fun t => t.stackVars[2]? == some (.i32 0)) = true := by decide

/-- T43. -/
theorem test_mulI32_sign :
    stepsTo (start [0x23, 2, 0, 0, 0, 0, 1, 0, 0, 0] [(0, .i32 0x80000000), (1, .i32 0xFFFFFFFF)]) .ok 10
    (fun t => t.stackVars[2]? == some (.i32 0x80000000)) = true := by decide

/-- T44: toward zero. -/
theorem test_divI32 : stepsTo (start [0x24, 2, 0, 0, 0, 0, 1, 0, 0, 0] [(0, .i32 0xFFFFFFF9), (1, .i32 2)]) .ok 10
    (fun t => t.stackVars[2]? == some (.i32 0xFFFFFFFD)) = true := by decide

/-- T11. -/
theorem test_divI32_zero :
    stepFails (start [0x24, 2, 0, 0, 0, 0, 1, 0, 0, 0] [(0, .i32 7), (1, .i32 0), (2, .i32 99)]) .errDivByZero =
    true := by decide

/-- T52. -/
theorem test_cmpI32 : stepsTo { start [0x30, 0, 0, 0, 0, 0, 1, 0, 0, 0] [(0, .i32 0xFFFFFFFF), (1, .i32 0)] with
    flags := 0b100 } .ok 10 (fun t => t.flags == 0b010) = true := by decide

/-- T55: a failed comparison keeps the flags. -/
theorem test_cmpI32_type : stepFails { start [0x30, 0, 0, 0, 0, 0, 1, 0, 0, 0] [(0, .i32 3), (1, .u32 3)] with
    flags := 0b010 } .errTypeMismatch = true := by decide

/-- T53. -/
theorem test_cmpU32 : stepsTo (start [0x31, 0, 0, 0, 0, 0, 1, 0, 0, 0] [(0, .u32 0xFFFFFFFF), (1, .u32 0)]) .ok 10
    (fun t => t.flags == 0b100) = true := by decide

/-- T56. -/
theorem test_cmpU32_type : stepFails { start [0x31, 0, 0, 0, 0, 0, 1, 0, 0, 0] [(0, .i32 0xFFFFFFFF), (1, .i32 0)] with
    flags := 0b001 } .errTypeMismatch = true := by decide

/-- T14: the last ten bytes are a valid target. -/
theorem test_jmp : stepsTo (start (padded [0x40, 0, 0x32, 0, 0, 0, 0, 0, 0, 0]) []) .ok 50 (fun _ => true) = true := by
  decide

/-- T13: one past the end is not. -/
theorem test_jmp_end : stepFails (start (padded [0x40, 0, 0x3C, 0, 0, 0, 0, 0, 0, 0]) []) .errInvalidPc = true := by
  decide

/-- T62: not taken, so the bad target is not checked. -/
theorem test_jz_not_taken : stepsTo { start (padded [0x41, 0, 0xC8, 0, 0, 0, 0, 0, 0, 0]) [] with flags := 0b100 } .ok 10
    (fun t => t.flags == 0b100) = true := by decide

/-- T64. -/
theorem test_jz_taken : stepsTo { start (padded [0x41, 0, 0x1E, 0, 0, 0, 0, 0, 0, 0]) [] with flags := 0b001 } .ok 30
    (fun t => t.flags == 0b001) = true := by decide

/-- T66. -/
theorem test_jnz_not_taken : stepsTo { start (padded [0x42, 0, 7, 0, 0, 0, 0, 0, 0, 0]) [] with flags := 0b001 } .ok 10
    (fun t => t.flags == 0b001) = true := by decide

/-- T67: only ZERO is tested, and the target need not be a multiple of ten. -/
theorem test_jnz_taken : stepsTo { start (padded [0x42, 0, 7, 0, 0, 0, 0, 0, 0, 0]) [] with flags := 0b010 } .ok 7
    (fun t => t.flags == 0b010) = true := by decide

/-- T68. -/
theorem test_printU32 : stepsTo (start [0x50, 0, 3, 0, 0, 0, 0, 0, 0, 0] [(3, .u32 7)]) .ok 10
    (fun t => t.output == [⟨.u32, 7⟩]) = true := by decide

/-- T69. -/
theorem test_printU32_type : stepFails (start [0x50, 0, 3, 0, 0, 0, 0, 0, 0, 0] [(3, .i32 7)]) .errTypeMismatch =
    true := by decide

/-- T70. -/
theorem test_printF32 : stepsTo (start [0x51, 0, 0, 0, 0, 0, 0, 0, 0, 0] [(0, .float 0x3FC00000)]) .ok 10
    (fun t => t.output == [⟨.f32, 0x3FC00000⟩]) = true := by decide

/-- T75. -/
theorem test_printF32_type :
    stepFails (start [0x51, 0, 0, 0, 0, 0, 0, 0, 0, 0] [(0, .u32 0x3FC00000)]) .errTypeMismatch = true := by decide

/-- T71: a masked index; events are appended. -/
theorem test_printI32 : stepsTo { start [0x52, 0, 0, 1, 0, 0, 0, 0, 0, 0] [(0, .i32 0xFFFFFFFF)] with
    output := [⟨.u32, 1⟩] } .ok 10 (fun t => t.output == [⟨.u32, 1⟩, ⟨.i32, 0xFFFFFFFF⟩]) = true := by decide

/-- T72. -/
theorem test_printI32_index : stepFails (start [0x52, 0, 0xFF, 1, 0, 0, 0, 0, 0, 0] []) .errInvalidStackVarIdx =
    true := by decide

/-- T78. -/
theorem test_invalid_opcode : stepFails (start [0xFF, 0, 0, 0, 0, 0, 0, 0, 0, 0] []) .errInvalidOpcode = true := by
  decide

/-- T82: the overrun is found before the opcode. -/
theorem test_overrun : stepFails (start [0x01, 0, 0, 0, 0, 0, 0, 0, 0] []) .errInvalidInstruction = true := by decide

/-- T31's instruction placed in the reset machine is what its very next step runs. -/
theorem test_withFetchWord : stepsTo (State.reset.withFetchWord 80 0xFFFFFFF90014) .ok 10
    (fun t => t.stackVars[0]? == some (.i32 0xFFFFFFF9)) = true := by decide

/-- A placed instruction does not fit at the last byte of program memory, so it goes to offset 0. -/
theorem test_withFetchWord_end : stepsTo (State.withFetchWord { State.reset with pc := 1023 } 8 0x01) .errHalt 0
    (fun t => t.programLen == 10) = true := by decide

/-! ## Host commands and text -/

/-- T18: one byte too many. -/
theorem test_load_too_large : cmdLoad (List.replicate 1025 0) (start (List.replicate 20 0) []) =
    (.errProgramTooLarge, start (List.replicate 20 0) []) :=
  if_neg (by rw [List.length_replicate]; decide)

/-- T19: exactly full. -/
theorem test_load_full : (cmdLoad (List.replicate 1024 0) State.reset).1 = .ok ∧
    (cmdLoad (List.replicate 1024 0) State.reset).2.programLen = 1024 := by
  have fits : (List.replicate 1024 (0 : Byte)).length ≤ State.reset.params.programMaxSize := by
    rw [List.length_replicate]
    decide
  rw [cmdLoad, if_pos fits, List.length_replicate]
  decide

/-- R139: a shorter program keeps the bytes beyond it, the banks and the flags. -/
theorem test_load_keeps : (cmdLoad [1] { start [7, 8] [(0, .i32 5)] with flags := 0b010, pc := 2 }).2 =
    { start [7, 8] [(0, .i32 5)] with flags := 0b010, program := [(0, 1), (1, 8)], programLen := 1 } := by decide

/-- T21: INSPECT after INIT. -/
theorem test_inspect_init : (inspect State.reset).pc = 0 ∧ (inspect State.reset).flags = 0 ∧
    (inspect State.reset).stackVars = List.replicate 64 (0, 0) ∧ (inspect State.reset).globals.length = 32 ∧
    (inspect State.reset).locals.length = 16 ∧ (inspect State.reset).buffers.length = 4 := by decide

/-- T85: RUN maps HALT to OK. -/
theorem test_run_halt : (run 1 (start [1, 0, 0, 0, 0, 0, 0, 0, 0, 0] [])).1 = .returned .ok := by decide

/-- T86: RUN past the program's end; one step is not enough. -/
theorem test_run_overrun : (run 1 (start (List.replicate 10 0) [])).1 = .outOfFuel ∧
    (run 2 (start (List.replicate 10 0) [])).1 = .returned .errInvalidInstruction := by decide

/-- R129: an INIT behind a RUN that goes on is not served; behind one that has returned it is. -/
theorem test_no_command_during_run :
    serveAll [.run 1, .init] (start (List.replicate 20 0) []) =
      ([.running], { start (List.replicate 20 0) [] with pc := 10 }) ∧
    (serveAll [.run 3, .init] (start (List.replicate 20 0) [])).1 = [.status .errInvalidInstruction, .nothing] := by
  decide

/-- T87. -/
theorem test_run_invalid_opcode :
    (run 5 (start [0xFF, 0, 0, 0, 0, 0, 0, 0, 0, 0] [])).1 = .returned .errInvalidOpcode := by decide

/-- T73. -/
theorem test_textU32 : textU32 0xFFFFFFFF = ['4', '2', '9', '4', '9', '6', '7', '2', '9', '5'] := by decide

/-- T74. -/
theorem test_textI32 : textI32 0x80000000 = ['-', '2', '1', '4', '7', '4', '8', '3', '6', '4', '8'] := by decide

/-- T70. -/
theorem test_textF32 : textF32 0x3FC00000 = ['1', '.', '5', '0', '0', '0', '0', '0'] := by decide

/-- The suffix follows each event's text (R105). -/
theorem test_suffix : eventText { Params.rc with printSuffix := ['x'] } ⟨.i32, 0xFFFFFFFF⟩ = ['-', '1', 'x'] := by decide

/-! ## Witnesses: states and operands that meet the hypotheses of the obligations, at the boundaries of each clause -/

/-- A state of RC with a loaded program of two NOPs, and slots of several tags at both ends of the banks. -/
def world : State :=
  { start (List.replicate 20 0) [(0, .i32 7), (1, .i32 0xFFFFFFFF), (2, .u32 7), (3, .u32 9), (4, .float 0x7FC00001),
      (62, .i32 0), (63, .i32 0x80000000)] with
    globals := State.reset.globals.set 31 (.u8x4 0x01020304)
    locals := State.reset.locals.set 15 (.unicode 0x41) }

/-- `world` with a HALT in its last ten bytes. -/
def atHalt : State := { world with program := [(10, 0x01)], pc := 10 }

theorem world_banksFit : BanksFit world := by decide

theorem world_programFits : ProgramFits world := by decide

theorem flagsLegal_of_zero (s : State) (h : s.flags = 0) : FlagsLegal s := by
  refine ⟨fun k _ => ?_, ?_⟩ <;> simp [h]

theorem world_inv : world.Inv where
  params := test_wf_rc
  banks := world_banksFit
  program := world_programFits
  pc := by decide
  flags := flagsLegal_of_zero world rfl
  buffers := by decide

/-- The last ten bytes of the loaded program. -/
theorem witness_StepRunsDecodedInstruction : ProgramFits atHalt ∧ Fetches atHalt (.halt 0 0 0) :=
  ⟨by decide, by decide, rfl⟩

/-- One byte short. -/
theorem witness_StepReportsFetchOverrun :
    ({ world with pc := 11 } : State).programLen.toNat < ({ world with pc := 11 } : State).pc.toNat + 10 := by decide

theorem witness_StepReportsUnassignedOpcode :
    ProgramFits { world with program := [(10, 0x02)], pc := 10 } ∧
    InProgram { world with program := [(10, 0x02)], pc := 10 } ∧
    OpcodeMap.default.assigns (Memory.read [(10, 0x02)] 10) = false := by decide

theorem witness_DecodeEncodeRoundTrip : OpcodeMap.default.wf := by decide

theorem witness_EncodeDecodeRoundTrip :
    [0x14, 0x03, 0x05, 0, 0, 0, 0xEF, 0xBE, 0xAD, 0xDE].length = 10 ∧
    decode .default .big [0x14, 0x03, 0x05, 0, 0, 0, 0xEF, 0xBE, 0xAD, 0xDE] =
      .ok (.loadII32 3 0x05000000 0xEFBEADDE) := ⟨rfl, rfl⟩

theorem witness_UnassignedOpcodesAreRejected : (List.replicate 9 (0xFF : Byte)).length = 9 ∧
    OpcodeMap.default.assigns 0x53 = false ∧ OpcodeMap.default.assigns 0x52 = true := by decide

theorem witness_MaskedIndexBitsAreIgnored : (0x0 : Word).toNat % 256 = (0x100 : Word).toNat % 256 ∧
    (0xFF : Word).toNat % 256 = (0xFFFFFFFF : Word).toNat % 256 := by decide

/-- Last valid index and first invalid one of G and S, for LOAD_G, STORE_G and their round trip. -/
theorem witness_globals : BanksFit world ∧
    ((31 : Word).toNat < world.params.gVarsCount ∧ (63 : Byte).toNat < world.params.stackVarCount) ∧
    world.params.gVarsCount ≤ (32 : Word).toNat ∧ world.params.stackVarCount ≤ (64 : Byte).toNat := by decide

/-- Last valid index and first invalid one of L, for LOAD_L and STORE_L. -/
theorem witness_locals : BanksFit world ∧
    ((15 : Word).toNat < world.params.stackLocalsCount ∧ (63 : Byte).toNat < world.params.stackVarCount) ∧
    world.params.stackLocalsCount ≤ (16 : Word).toNat ∧ world.params.stackVarCount ≤ (64 : Byte).toNat := by decide

/-- For LOAD_I_I32. -/
theorem witness_LoadImmediateSetsI32 : BanksFit world ∧ (63 : Byte).toNat < world.params.stackVarCount ∧
    world.params.stackVarCount ≤ (64 : Byte).toNat := by decide

/-- For LOAD_I_I32's last clause: every slot VOID, and an instruction that leaves one that is not. -/
theorem witness_LoadImmediateSetsI32_void : (∀ v ∈ slots State.reset, v = .void) ∧
    ∃ t, exec (.loadII32 63 5 0) State.reset = .next t ∧ ∃ v ∈ slots t, v ≠ .void :=
  ⟨by decide, _, rfl, .i32 5, by decide, nofun⟩

/-- The result clauses of ADD_I32, SUB_I32, MUL_I32, DIV_I32 and CMP_I32: two I32 sources, the last slot among them. -/
theorem witness_i32_sources : BanksFit world ∧ world.stackVars[(63 : Word).toNat % 256]? = some (.i32 0x80000000) ∧
    world.stackVars[(0x101 : Word).toNat % 256]? = some (.i32 0xFFFFFFFF) ∧
    (63 : Byte).toNat < world.params.stackVarCount := by decide

/-- DIV_I32's three cases: a zero divisor, the overflow pair, an ordinary divisor. -/
theorem witness_DivI32_divisors : world.stackVars[(62 : Word).toNat % 256]? = some (.i32 0) ∧ (0 : Word).toInt = 0 ∧
    (0x80000000 : Word).toInt = -2 ^ 31 ∧ (0xFFFFFFFF : Word).toInt = -1 ∧
    ¬ ((7 : Word).toInt = -2 ^ 31 ∧ (0xFFFFFFFF : Word).toInt = -1) := by decide

/-- The result clauses of ADD_U32, CMP_U32 and PRINT_U32. -/
theorem witness_u32_sources : BanksFit world ∧ world.stackVars[(2 : Word).toNat % 256]? = some (.u32 7) ∧
    world.stackVars[(0x103 : Word).toNat % 256]? = some (.u32 9) ∧ (63 : Byte).toNat < world.params.stackVarCount := by
  decide

/-- The result clauses of PRINT_I32 and PRINT_F32. -/
theorem witness_print_sources : BanksFit world ∧ world.stackVars[(63 : Word).toNat % 256]? = some (.i32 0x80000000) ∧
    world.stackVars[(4 : Word).toNat % 256]? = some (.float 0x7FC00001) := by decide

/-- `RaisesOnBadIndex`: the first index beyond the bank, as a source and as the destination. -/
theorem witness_bad_index : BanksFit world ∧
    (∃ k ∈ [(64 : Word).toNat % 256, (0 : Word).toNat % 256, (63 : Byte).toNat], world.params.stackVarCount ≤ k) ∧
    (∃ k ∈ [(0 : Word).toNat % 256, (0 : Word).toNat % 256, (64 : Byte).toNat], world.params.stackVarCount ≤ k) ∧
    (∃ k ∈ [(0 : Word).toNat % 256, (0xFF : Word).toNat % 256], world.params.stackVarCount ≤ k) ∧
    (∃ k ∈ [(0x1FF : Word).toNat % 256], world.params.stackVarCount ≤ k) := by decide

/-- `RaisesOnBadTag`: every index in the bank, and the second source has another tag (here U32, for the I32 and F32
instructions; the first is a float, for the U32 ones). -/
theorem witness_bad_tag : BanksFit world ∧
    (∀ k ∈ [(4 : Word).toNat % 256, (2 : Word).toNat % 256, (63 : Byte).toNat], k < world.params.stackVarCount) ∧
    world.stackVars[(2 : Word).toNat % 256]? = some (.u32 7) ∧ (TypedValue.u32 7).tag ≠ .i32 ∧
    (TypedValue.u32 7).tag ≠ .float ∧ world.stackVars[(4 : Word).toNat % 256]? = some (.float 0x7FC00001) ∧
    (TypedValue.float 0x7FC00001).tag ≠ .u32 := by decide

/-- A VOID second source. -/
theorem witness_VoidIsRejectedByEveryConsumer : BanksFit world ∧ (5 : Word).toNat % 256 < world.params.stackVarCount ∧
    (0 : Word).toNat % 256 < world.params.stackVarCount ∧ (63 : Byte).toNat < world.params.stackVarCount ∧
    world.stackVars[(5 : Word).toNat % 256]? = some .void := by decide

/-- A LOAD_G and an ADD_I32 that return OK, the sources of the latter apart from its destination. -/
theorem witness_DestinationsOldValueIsIrrelevant :
    (∃ t, t.stepStatus = .ok ∧ exec (.loadG 63 31 0) world = .next t) ∧
    (0 : Word).toNat % 256 ≠ (2 : Byte).toNat ∧ (1 : Word).toNat % 256 ≠ (2 : Byte).toNat ∧
    ∃ t, t.stepStatus = .ok ∧ exec (.addI32 2 0 1) world = .next t :=
  ⟨⟨_, rfl, rfl⟩, by decide, by decide, _, rfl, rfl⟩

theorem witness_ComparisonRewritesAllFlags :
    (∃ t, exec (.cmpI32 0 0 1) world = .next t ∧ t.stepStatus = .ok) ∧
    ∃ t, exec (.cmpU32 0 2 3) world = .next t ∧ t.stepStatus = .ok := ⟨⟨_, rfl, rfl⟩, _, rfl, rfl⟩

/-- Jump targets at both sides of `program_len`, with ZERO clear (`world`) and set. -/
theorem witness_jumps : (19 : Word).toNat < world.programLen.toNat ∧ world.programLen.toNat ≤ (20 : Word).toNat ∧
    world.flags.getLsbD 0 = false ∧ ({ world with flags := 0b001 } : State).flags.getLsbD 0 = true := by decide

/-- The largest finite word, a normal one; the smallest subnormal word. -/
theorem witness_FloatTextIsNearest :
    ((0x7F7FFFFF : Word).toNat / 2 ^ 23 % 2 ^ 8 = 254 ∧ (0x7F7FFFFF : Word).toNat % 2 ^ 23 = 8388607) ∧
    ((0x00000001 : Word).toNat / 2 ^ 23 % 2 ^ 8 = 0 ∧ (0x00000001 : Word).toNat % 2 ^ 23 = 1) := by decide

theorem witness_HaltReturnsErrHalt : ProgramFits atHalt ∧ Fetches atHalt (.halt 0 0 0) := ⟨by decide, by decide, rfl⟩

/-- The frames: one instruction of each shape that answers a next state with OK, and one with an error. -/
theorem witness_frames :
    (∃ t, exec (.mulI32 5 63 1) world = .next t ∧ t.stepStatus = .ok) ∧
    (∃ t, exec (.storeG 63 31 0) world = .next t ∧ t.stepStatus = .ok) ∧
    (∃ t, exec (.storeL 63 15 0) world = .next t ∧ t.stepStatus = .ok) ∧
    (∃ t, exec (.cmpI32 0 2 0) world = .next t ∧ t.stepStatus ≠ .ok) ∧
    (∃ t, exec (.jnz 0 19 0) world = .next t ∧ t.stepStatus = .ok) ∧
    (∃ t, exec (.printF32 0 4 0) world = .next t ∧ t.stepStatus = .ok) ∧
    ∃ t, exec (.printF32 0 3 0) world = .next t ∧ t.stepStatus ≠ .ok :=
  ⟨⟨_, rfl, rfl⟩, ⟨_, rfl, rfl⟩, ⟨_, rfl, rfl⟩, ⟨_, rfl, nofun⟩, ⟨_, rfl, rfl⟩, ⟨_, rfl, rfl⟩, _, rfl, nofun⟩

/-- For FailingStepChangesNothing and FailedStepRepeats: a HALT. -/
theorem witness_failing_step : ∃ t, step atHalt = .next t ∧ t.stepStatus ≠ .ok := ⟨_, rfl, nofun⟩

theorem witness_StepAlwaysCompletes : world.Inv := world_inv

/-- The clauses of StatusesOfEachInstruction not met by `witness_frames`. -/
theorem witness_StatusesOfEachInstruction :
    (∃ t, exec (.loadG 0 32 0) world = .next t) ∧ (∃ t, exec (.loadL 0 16 0) world = .next t) ∧
    (∃ t, exec (.loadII32 64 0 0) world = .next t) ∧ (∃ t, exec (.divI32 0 0 62) world = .next t) ∧
    (∃ t, exec (.nop 0 0 0) world = .next t) ∧ (∃ t, exec (.halt 0 0 0) world = .next t) ∧
    ∃ t, step { world with program := [(10, 0x02)], pc := 10 } = .next t :=
  ⟨⟨_, rfl⟩, ⟨_, rfl⟩, ⟨_, rfl⟩, ⟨_, rfl⟩, ⟨_, rfl⟩, ⟨_, rfl⟩, _, rfl⟩

theorem witness_FiveCodesAreNeverReturned : ∃ t, serve .step world = (.status .ok, t) := ⟨_, rfl⟩

/-- A NOP in the last ten bytes, and a taken JNZ to the last byte. -/
theorem witness_OkStepMovesPc :
    (ProgramFits { world with pc := 10 } ∧ Fetches { world with pc := 10 } (.nop 0 0 0) ∧
      ∃ t, step { world with pc := 10 } = .next t ∧ t.stepStatus = .ok) ∧
    ∃ t, step { world with program := [(0, 0x42), (2, 19)] } = .next t ∧ t.stepStatus = .ok ∧ t.pc = 19 :=
  ⟨⟨by decide, ⟨by decide, rfl⟩, _, rfl, rfl⟩, _, rfl, rfl, rfl⟩

theorem witness_StepKeepsInv : world.Inv ∧ ∃ t, step world = .next t := ⟨world_inv, _, rfl⟩

theorem witness_ReachableStatesHaveInv : Params.rc.wf := test_wf_rc

theorem witness_OnlyI32ValuesFromInit :
    OnlyI32 (start [0x14, 0, 0xF9, 0xFF, 0xFF, 0xFF, 0, 0, 0, 0] [(63, .i32 1)]) ∧
    ∃ t, step (start [0x14, 0, 0xF9, 0xFF, 0xFF, 0xFF, 0, 0, 0, 0] [(63, .i32 1)]) = .next t := ⟨by decide, _, rfl⟩

/-- Two states that differ in `sp`, LESS, a program byte beyond the program, and what was sent before. -/
theorem witness_StepIgnoresWhatIsNotRead :
    SeenAlike world { world with sp := 5, flags := 0b010, program := [(20, 0xFF)], stepStatus := .errHalt } ∧
    ∃ t, step world = .next t := by
  refine ⟨⟨rfl, fun a ha => ?_, rfl, rfl, rfl, rfl, rfl, rfl⟩, _, rfl⟩
  have lt : a < 20 := ha
  show Memory.read [] a = if 20 = a then 0xFF else Memory.read [] a
  rw [if_neg (by omega)]

/-- LOAD of nothing, of exactly `PROGRAM_MAX_SIZE` bytes, and of one more. -/
theorem witness_LoadStoresTheProgram : world.params.wf ∧ ProgramFits world ∧
    ([] : List Byte).length ≤ world.params.programMaxSize ∧
    (List.replicate 1024 (1 : Byte)).length ≤ world.params.programMaxSize ∧
    world.params.programMaxSize < (List.replicate 1025 (1 : Byte)).length := by
  rw [List.length_replicate, List.length_replicate]
  exact ⟨test_wf_rc, world_programFits, by decide, by decide, by decide⟩

/-- A buffer at the last index too. -/
theorem witness_InspectShowsTheState : FlagsLegal world ∧ world.buffers[3]? = some ⟨.void, []⟩ :=
  ⟨flagsLegal_of_zero world rfl, by decide⟩

/-- RUN that ends in a HALT after a NOP, and one that ends in an error. -/
theorem witness_RunReturnsTheMappedStatus :
    (∃ t, run 2 { atHalt with pc := 0 } = (.returned .ok, t)) ∧
    ∃ t, run 3 world = (.returned .errInvalidInstruction, t) := ⟨⟨_, rfl⟩, _, rfl⟩

/-- T61, in the last ten bytes. -/
theorem witness_SelfLoopNeverReturns :
    ProgramFits { world with program := [(10, 0x40), (12, 10)], pc := 10 } ∧
    Fetches { world with program := [(10, 0x40), (12, 10)], pc := 10 } (.jmp 0 10 0) :=
  ⟨by decide, by decide, rfl⟩

/-- The last buffer and the first index beyond; the last position of a U16 buffer and the first beyond; a VOID buffer
has no position. -/
theorem witness_BufferChecksAreTheSpecs : BanksFit world ∧ 3 < world.params.gMembufCount ∧
    world.params.gMembufCount ≤ 4 ∧ 127 < BufferType.u16.capacity ∧ BufferType.u16.capacity ≤ 128 ∧
    BufferType.void.capacity ≤ 0 := by decide

/-- A sequence whose commands have all completed, the last of them a RUN of no more fuel than it needs, and one in which
a RUN goes on. -/
theorem witness_CommandsAreSerialised :
    (serveAll [.step, .run 2] world).1 = [.status .ok, .status .errInvalidInstruction] ∧
    Reply.running ∈ (serveAll [.step, .run 1, .inspect] world).1 := by decide

end Sys2Proof.Tests
end

section
/-! PROOFS. The state and its invariants (10_state.md): the frame of every instruction (R34), the invariants of R36
along steps and host commands, and the checks and codes of R14 to R30. -/

namespace Sys2Proof.Machine

/-! ## The writes of an instruction, by kind -/

/-- A property that `s` has, and that `s` has after any one write of R34's matrix, holds of what an instruction's write
makes of `s`. -/
theorem of_writeOf (P : State → Prop) {i : Instr} {s u : State} (hs : P s) (hS : ∀ k v, P (writeS k v s))
    (hG : ∀ k v, P (writeG k v s)) (hL : ∀ k v, P (writeL k v s)) (hF : ∀ u, WroteFlags s u → P u)
    (hE : ∀ k w, P (emit k w s)) (h : WriteOf i s u) : P u := by
  cases i with
  | nop | halt | jmp | jz | jnz => exact h.symm ▸ hs
  | loadG | loadL | loadII32 | addI32 | addU32 | subI32 | mulI32 | divI32 =>
    obtain ⟨v, -, rfl⟩ := h
    exact hS _ v
  | storeG =>
    obtain ⟨v, -, rfl⟩ := h
    exact hG _ v
  | storeL =>
    obtain ⟨v, -, rfl⟩ := h
    exact hL _ v
  | cmpI32 | cmpU32 => exact hF u h
  | printU32 | printF32 | printI32 =>
    obtain ⟨k, w, rfl⟩ := h
    exact hE k w

/-- No write touches what R34's last line lists. -/
theorem frameBase_of_writeOf {i : Instr} {s u : State} (h : WriteOf i s u) : FrameBase s u :=
  of_writeOf (FrameBase s)
    ⟨rfl, fun _ => rfl, rfl, rfl, rfl⟩
    (fun _ _ => ⟨rfl, fun _ => rfl, rfl, rfl, rfl⟩)
    (fun _ _ => ⟨rfl, fun _ => rfl, rfl, rfl, rfl⟩)
    (fun _ _ => ⟨rfl, fun _ => rfl, rfl, rfl, rfl⟩)
    (fun _ ⟨_, _, hu⟩ => hu ▸ ⟨rfl, fun _ => rfl, rfl, rfl, rfl⟩)
    (fun _ _ => ⟨rfl, fun _ => rfl, rfl, rfl, rfl⟩) h

/-- No instruction does, whatever its status. -/
theorem exec_frameBase {i : Instr} {s t : State} (h : exec i s = .next t) : FrameBase s t := by
  rcases exec_next_cases i s t h with ⟨e, -, rfl⟩ | ⟨u, target, hu, -, rfl⟩
  · exact ⟨rfl, fun _ => rfl, rfl, rfl, rfl⟩
  · exact { frameBase_of_writeOf hu with }

/-! ## The invariants of R36 -/

/-- A flag register with at most one of its three bits set is legal (R36 d). -/
theorem flagsLegal_of_oneHot {s : State} (h : s.flags = 0 ∨ s.flags = 0b001 ∨ s.flags = 0b010 ∨ s.flags = 0b100) :
    FlagsLegal s := by
  have hlt : s.flags.toNat < 2 ^ 3 := by rcases h with h | h | h | h <;> rw [h] <;> decide
  refine ⟨fun k hk => Nat.testBit_lt_two_pow (hlt.trans_le (Nat.pow_le_pow_right (by decide) hk)), ?_⟩
  rcases h with h | h | h | h <;> rw [h] <;> decide

/-- INIT of a legal build establishes the invariants (R35). -/
theorem inv_init {p : Params} (hp : p.wf) : (State.init p).Inv where
  params := hp
  banks := by simp [BanksFit]
  program := ⟨init_program_wf p, by simp, by simp⟩
  pc := by simp
  flags := flagsLegal_of_oneHot (.inl rfl)
  buffers := fun _ hb => List.eq_of_mem_replicate hb

/-- INIT from any state of a legal build does too; the record of events takes no part. -/
theorem inv_cmdInit {s : State} (hs : s.Inv) : (cmdInit s).Inv := { inv_init hs.params with }

/-- LOAD keeps the invariants: it writes below `PROGRAM_MAX_SIZE`, or nothing (R139, R140). -/
theorem inv_cmdLoad {s : State} (bytes : List Byte) (hs : s.Inv) : (cmdLoad bytes s).2.Inv := by
  have ⟨hparams, hbanks, ⟨hwf, hbelow, _⟩, _, hflags, hbuffers⟩ := hs
  unfold cmdLoad
  split
  · next hlen =>
    have hprogramLen : (BitVec.ofNat 32 bytes.length).toNat ≤ s.params.programMaxSize := by
      rw [BitVec.toNat_ofNat]
      exact (Nat.mod_le _ _).trans hlen
    exact ⟨hparams, hbanks, ⟨Memory.wf_writeBytes bytes _ 0 hwf,
      Memory.below_writeBytes bytes _ 0 _ hbelow (by simpa using hlen), hprogramLen⟩, Nat.zero_le _, hflags, hbuffers⟩
  · exact hs

theorem inv_writeS {s : State} (k : Nat) (v : TypedValue) (hs : s.Inv) : (writeS k v s).Inv :=
  { hs with banks := by simpa [BanksFit] using hs.banks }

theorem inv_writeG {s : State} (k : Nat) (v : TypedValue) (hs : s.Inv) : (writeG k v s).Inv :=
  { hs with banks := by simpa [BanksFit] using hs.banks }

theorem inv_writeL {s : State} (k : Nat) (v : TypedValue) (hs : s.Inv) : (writeL k v s).Inv :=
  { hs with banks := by simpa [BanksFit] using hs.banks }

theorem inv_emit {s : State} (k : EventKind) (w : Word) (hs : s.Inv) : (emit k w s).Inv := { hs with }

/-- The flags of a valid comparison are legal (R96). -/
theorem inv_wroteFlags {s u : State} (hs : s.Inv) (h : WroteFlags s u) : u.Inv := by
  obtain ⟨f, hf, rfl⟩ := h
  exact { hs with flags := flagsLegal_of_oneHot (.inr hf) }

theorem inv_of_writeOf {i : Instr} {s u : State} (hs : s.Inv) (h : WriteOf i s u) : u.Inv :=
  of_writeOf State.Inv hs (fun k v => inv_writeS k v hs) (fun k v => inv_writeG k v hs) (fun k v => inv_writeL k v hs)
    (fun _ => inv_wroteFlags hs) (fun k w => inv_emit k w hs) h

/-- The status returned takes no part in the invariants. -/
theorem inv_raised {s : State} (e : Status) (hs : s.Inv) : State.Inv { s with stepStatus := e } := { hs with }

/-- A commit keeps the invariants where its successor lies within the loaded program, or at its end. -/
theorem inv_committed {u : State} {target : Word} (hu : u.Inv) (h : target.toNat ≤ u.programLen.toNat) :
    State.Inv { u with pc := target, stepStatus := .ok } := { hu with pc := h }

/-- The default successor of an instruction in the loaded program does not wrap (R23, R43, R73). -/
theorem toNat_pc_add_ten {s : State} (h : InProgram s) : (s.pc + 10).toNat = s.pc.toNat + 10 := by
  have hlen := s.programLen.isLt
  have hpc : s.pc.toNat + 10 ≤ s.programLen.toNat := h
  rw [BitVec.toNat_add]
  exact Nat.mod_eq_of_lt (by simp; omega)

/-- Every step keeps the invariants. -/
theorem step_keeps_inv (s t : State) (hs : s.Inv) (h : step s = .next t) : t.Inv := by
  rcases step_next_cases s t h with ⟨e, -, rfl⟩ | ⟨i, u, target, -, hin, hu, htarget, rfl⟩
  · exact inv_raised e hs
  · refine inv_committed (inv_of_writeOf hs hu) ?_
    rw [(frameBase_of_writeOf hu).programLen]
    rcases htarget with rfl | hlt
    · exact (toNat_pc_add_ten hin).trans_le hin
    · exact hlt.le

/-- Settles O48: an error changes nothing the invariants speak of, and a commit keeps them write by write. -/
theorem stepKeepsInv : Obligations.StepKeepsInv := step_keeps_inv

/-- Settles O49: INIT establishes the invariants, and every command keeps them. -/
theorem reachableStatesHaveInv : Obligations.ReachableStatesHaveInv := fun p cs hp =>
  serveAll_keeps State.Inv step_keeps_inv (fun _ => inv_cmdInit) (fun _ => inv_cmdLoad) cs (State.init p)
    (inv_init hp)

/-- The reference configuration is a legal build (R4). -/
theorem params_rc_wf : Params.rc.wf := by constructor <;> decide

/-- A step with fewer than ten loaded bytes at `pc` finds no instruction (R71). -/
theorem step_of_overrun {s : State} (h : ¬ InProgram s) : step s = raise .errInvalidInstruction s := by
  simp only [step, fetch_of_overrun s h]

/-- Settles O50: the reset state is INIT's at RC, with no program loaded. -/
theorem resetHasInv : Obligations.ResetHasInv := ⟨inv_init params_rc_wf, step_of_overrun (by decide)⟩

/-! ## Typed consumers reject VOID (R16) -/

/-- A source of another tag, with every index in the bank, is a type error of an arithmetic instruction (R87). -/
theorem binopOperands_tag_ne {t : Tag} {opd : Byte} {imm1 imm2 : Word} {s : State} {v w : TypedValue}
    (hv : s.stackVars[imm1.toNat % 256]? = some v) (hw : s.stackVars[imm2.toNat % 256]? = some w)
    (hd : opd.toNat < s.stackVars.length) (ht : v.tag ≠ t ∨ w.tag ≠ t) (k : Word → Word → Result) :
    binopOperands t opd imm1 imm2 s k = raise .errTypeMismatch s := by
  rw [← maskedIdx_eq] at hv hw
  rw [binopOperands, resolveS_some hv, resolveS_some hw, resolveS_of_lt hd, requireTags_ne ht]

/-- As `binopOperands_tag_ne`, of a comparison (R95). -/
theorem cmpOperands_tag_ne {t : Tag} {imm1 imm2 : Word} {s : State} {v w : TypedValue}
    (hv : s.stackVars[imm1.toNat % 256]? = some v) (hw : s.stackVars[imm2.toNat % 256]? = some w)
    (ht : v.tag ≠ t ∨ w.tag ≠ t) (k : Word → Word → Result) :
    cmpOperands t imm1 imm2 s k = raise .errTypeMismatch s := by
  rw [← maskedIdx_eq] at hv hw
  rw [cmpOperands, resolveS_some hv, resolveS_some hw, requireTags_ne ht]

/-- As `binopOperands_tag_ne`, of an output instruction (R106). -/
theorem printOperand_tag_ne {t : Tag} {imm1 : Word} {s : State} {v : TypedValue}
    (hv : s.stackVars[imm1.toNat % 256]? = some v) (ht : v.tag ≠ t) (k : Word → Result) :
    printOperand t imm1 s k = raise .errTypeMismatch s := by
  rw [← maskedIdx_eq] at hv
  rw [printOperand, resolveS_some hv, requireTag_ne ht]

/-- VOID has no tag that a typed consumer requires (R16). -/
theorem tag_ne_of_void {t : Tag} (ht : t ≠ .void) {v : TypedValue} (hv : v = .void) : v.tag ≠ t := hv ▸ ht.symm

/-- The two-source instructions take their operands by one of the two shared forms, at a tag that is not VOID. -/
theorem exec_twoSource_eq (opd : Byte) (imm1 imm2 : Word) (s : State) :
    ∀ mk ∈ [Instr.addI32, Instr.addU32, Instr.subI32, Instr.mulI32, Instr.divI32, Instr.cmpI32, Instr.cmpU32],
      ∃ t k, t ≠ Tag.void ∧ (exec (mk opd imm1 imm2) s = binopOperands t opd imm1 imm2 s k ∨
        exec (mk opd imm1 imm2) s = cmpOperands t imm1 imm2 s k) := by
  simp only [List.forall_mem_cons, List.not_mem_nil, false_implies, implies_true, and_true]
  exact ⟨⟨.i32, _, by decide, .inl rfl⟩, ⟨.u32, _, by decide, .inl rfl⟩, ⟨.i32, _, by decide, .inl rfl⟩,
    ⟨.i32, _, by decide, .inl rfl⟩, ⟨.i32, _, by decide, .inl rfl⟩, ⟨.i32, _, by decide, .inr rfl⟩,
    ⟨.u32, _, by decide, .inr rfl⟩⟩

/-- The output instructions take theirs by the third, at a tag that is not VOID. -/
theorem exec_print_eq (opd : Byte) (imm1 imm2 : Word) (s : State) :
    ∀ mk ∈ [Instr.printU32, Instr.printF32, Instr.printI32],
      ∃ t k, t ≠ Tag.void ∧ exec (mk opd imm1 imm2) s = printOperand t imm1 s k := by
  simp only [List.forall_mem_cons, List.not_mem_nil, false_implies, implies_true, and_true]
  exact ⟨⟨.u32, _, by decide, rfl⟩, ⟨.float, _, by decide, rfl⟩, ⟨.i32, _, by decide, rfl⟩⟩

/-- Settles O21: each consumer's operand form requires a tag that VOID does not have. -/
theorem voidIsRejectedByEveryConsumer : Obligations.VoidIsRejectedByEveryConsumer := by
  rintro s opd imm1 imm2 ⟨-, -, hlen, -⟩ h1
  rw [← hlen] at h1 ⊢
  constructor
  · intro h2 hd hvoid mk hmk
    have hv := List.getElem?_eq_getElem h1
    have hw := List.getElem?_eq_getElem h2
    obtain ⟨t, k, ht, heq⟩ := exec_twoSource_eq opd imm1 imm2 s mk hmk
    have hne : s.stackVars[imm1.toNat % 256].tag ≠ t ∨ s.stackVars[imm2.toNat % 256].tag ≠ t := by
      rw [hv, hw, Option.some_inj, Option.some_inj] at hvoid
      exact hvoid.imp (tag_ne_of_void ht) (tag_ne_of_void ht)
    rcases heq with heq | heq
    · exact heq.trans (binopOperands_tag_ne hv hw hd hne k)
    · exact heq.trans (cmpOperands_tag_ne hv hw hne k)
  · intro hvoid mk hmk
    obtain ⟨t, k, ht, heq⟩ := exec_print_eq opd imm1 imm2 s mk hmk
    exact heq.trans (printOperand_tag_ne hvoid ht.symm k)

/-! ## The frames of R34, by instruction shape -/

/-- Settles O37: the one write is that of `S[opd]`. -/
theorem frameOfStackVarWriters : Obligations.FrameOfStackVarWriters := by
  intro s t opd imm1 imm2 mk hmk h
  have hwrite : ∀ u, WriteOf (mk opd imm1 imm2) s u → WroteS s opd.toNat u := by
    fin_cases hmk <;> exact fun _ hu => hu
  refine ⟨exec_frameBase h, ?_⟩
  rcases exec_next_cases _ s t h with ⟨e, -, rfl⟩ | ⟨u, target, hu, -, rfl⟩
  · exact ⟨rfl, rfl, rfl, rfl, rfl, fun _ _ => rfl⟩
  · obtain ⟨v, -, rfl⟩ := hwrite u hu
    exact ⟨rfl, rfl, rfl, rfl, List.length_set, fun k hk => List.getElem?_set_ne hk.symm⟩

/-- Settles O38: the one write is that of `G[imm1]`, or of `L[imm1]`. -/
theorem frameOfBankStores : Obligations.FrameOfBankStores := by
  intro s t opd imm1 imm2
  constructor
  · intro h
    refine ⟨exec_frameBase h, ?_⟩
    rcases exec_next_cases _ s t h with ⟨e, -, rfl⟩ | ⟨u, target, ⟨v, -, rfl⟩, -, rfl⟩
    · exact ⟨rfl, rfl, rfl, rfl, rfl, fun _ _ => rfl⟩
    · exact ⟨rfl, rfl, rfl, rfl, List.length_set, fun k hk => List.getElem?_set_ne hk.symm⟩
  · intro h
    refine ⟨exec_frameBase h, ?_⟩
    rcases exec_next_cases _ s t h with ⟨e, -, rfl⟩ | ⟨u, target, ⟨v, -, rfl⟩, -, rfl⟩
    · exact ⟨rfl, rfl, rfl, rfl, rfl, fun _ _ => rfl⟩
    · exact ⟨rfl, rfl, rfl, rfl, List.length_set, fun k hk => List.getElem?_set_ne hk.symm⟩

/-- Settles O39: the one write is that of the flags, and only a commit makes it. -/
theorem frameOfComparisons : Obligations.FrameOfComparisons := by
  intro s t opd imm1 imm2 mk hmk h
  have hwrite : ∀ u, WriteOf (mk opd imm1 imm2) s u → WroteFlags s u := by
    fin_cases hmk <;> exact fun _ hu => hu
  refine ⟨exec_frameBase h, ?_⟩
  rcases exec_next_cases _ s t h with ⟨e, -, rfl⟩ | ⟨u, target, hu, -, rfl⟩
  · exact ⟨rfl, rfl, rfl, rfl, fun _ => rfl⟩
  · obtain ⟨f, -, rfl⟩ := hwrite u hu
    exact ⟨rfl, rfl, rfl, rfl, fun hne => absurd rfl hne⟩

/-- Settles O40: there is no write but that of `pc`. -/
theorem frameOfControlFlowAndMisc : Obligations.FrameOfControlFlowAndMisc := by
  intro s t opd imm1 imm2 mk hmk h
  have hwrite : ∀ u, WriteOf (mk opd imm1 imm2) s u → u = s := by
    fin_cases hmk <;> exact fun _ hu => hu
  refine ⟨exec_frameBase h, ?_⟩
  rcases exec_next_cases _ s t h with ⟨e, -, rfl⟩ | ⟨u, target, hu, -, rfl⟩
  · exact ⟨rfl, rfl, rfl, rfl, rfl⟩
  · obtain rfl := hwrite u hu
    exact ⟨rfl, rfl, rfl, rfl, rfl⟩

/-- Settles O41: a commit emits one event, an error none. -/
theorem frameOfOutput : Obligations.FrameOfOutput := by
  intro s t opd imm1 imm2 mk hmk h
  have hwrite : ∀ u, WriteOf (mk opd imm1 imm2) s u → Emitted s u := by
    fin_cases hmk <;> exact fun _ hu => hu
  refine ⟨exec_frameBase h, ?_⟩
  rcases exec_next_cases _ s t h with ⟨e, he, rfl⟩ | ⟨u, target, hu, -, rfl⟩
  · exact ⟨rfl, rfl, rfl, rfl, fun hok => absurd hok he, fun _ => rfl⟩
  · obtain ⟨k, w, rfl⟩ := hwrite u hu
    exact ⟨rfl, rfl, rfl, rfl, fun _ => ⟨⟨k, w⟩, rfl⟩, fun hne => absurd rfl hne⟩

/-! ## The successor of a step that returns OK (R73, R99) -/

/-- An answer that, where it is a next state with status OK, has `pc` at the default successor of `s`. -/
def OkAdvances (s : State) (r : Result) : Prop := ∀ t, r = .next t → t.stepStatus = .ok → t.pc = s.pc + 10

theorem okAdvances_raise (s : State) {e : Status} (he : e ≠ .ok) : OkAdvances s (raise e s) := by
  rintro t ⟨⟩ hok
  exact absurd hok he

theorem okAdvances_advance {s u : State} (h : u.pc = s.pc) : OkAdvances s (advance u) := by
  rintro t ⟨⟩ -
  exact congrArg (· + 10) h

theorem okAdvances_resolveS {i : Nat} {s : State} {k : TypedValue → Result} (h : ∀ v, OkAdvances s (k v)) :
    OkAdvances s (resolveS i s k) := by
  rcases resolveS_cases i s k with ⟨v, -, heq⟩ | ⟨-, heq⟩
  · exact heq ▸ h v
  · exact heq ▸ okAdvances_raise s (by decide)

theorem okAdvances_resolveG {i : Nat} {s : State} {k : TypedValue → Result} (h : ∀ v, OkAdvances s (k v)) :
    OkAdvances s (resolveG i s k) := by
  rcases resolveG_cases i s k with ⟨v, -, heq⟩ | ⟨-, heq⟩
  · exact heq ▸ h v
  · exact heq ▸ okAdvances_raise s (by decide)

theorem okAdvances_resolveL {i : Nat} {s : State} {k : TypedValue → Result} (h : ∀ v, OkAdvances s (k v)) :
    OkAdvances s (resolveL i s k) := by
  rcases resolveL_cases i s k with ⟨v, -, heq⟩ | ⟨-, heq⟩
  · exact heq ▸ h v
  · exact heq ▸ okAdvances_raise s (by decide)

theorem okAdvances_binopOperands {t : Tag} {opd : Byte} {imm1 imm2 : Word} {s : State} {k : Word → Word → Result}
    (h : ∀ x y, OkAdvances s (k x y)) : OkAdvances s (binopOperands t opd imm1 imm2 s k) := by
  rcases binopOperands_cases t opd imm1 imm2 s k with ⟨v, w, -, -, -, -, -, heq⟩ | heq | heq
  · exact heq ▸ h _ _
  · exact heq ▸ okAdvances_raise s (by decide)
  · exact heq ▸ okAdvances_raise s (by decide)

theorem okAdvances_cmpOperands {t : Tag} {imm1 imm2 : Word} {s : State} {k : Word → Word → Result}
    (h : ∀ x y, OkAdvances s (k x y)) : OkAdvances s (cmpOperands t imm1 imm2 s k) := by
  rcases cmpOperands_cases t imm1 imm2 s k with ⟨v, w, -, -, -, -, heq⟩ | heq | heq
  · exact heq ▸ h _ _
  · exact heq ▸ okAdvances_raise s (by decide)
  · exact heq ▸ okAdvances_raise s (by decide)

theorem okAdvances_printOperand {t : Tag} {imm1 : Word} {s : State} {k : Word → Result}
    (h : ∀ x, OkAdvances s (k x)) : OkAdvances s (printOperand t imm1 s k) := by
  rcases printOperand_cases t imm1 s k with ⟨v, -, -, heq⟩ | heq | heq
  · exact heq ▸ h _
  · exact heq ▸ okAdvances_raise s (by decide)
  · exact heq ▸ okAdvances_raise s (by decide)

/-- The instruction is a jump that is taken in `s`, to `target` (R100 to R102). -/
def TakesJump (i : Instr) (s : State) (target : Word) : Prop :=
  (∃ o a b, i = .jmp o a b ∧ target = a) ∨ (∃ o a b, i = .jz o a b ∧ zeroFlag s = true ∧ target = a) ∨
    (∃ o a b, i = .jnz o a b ∧ zeroFlag s = false ∧ target = a)

/-- Every instruction either advances on OK, or is a jump to some target that it takes. -/
theorem exec_okAdvances_or_takeJump (i : Instr) (s : State) :
    OkAdvances s (exec i s) ∨ ∃ target, TakesJump i s target ∧ exec i s = takeJump target s := by
  cases i with
  | nop => exact .inl (okAdvances_advance rfl)
  | halt => exact .inl (okAdvances_raise s (by decide))
  | loadG => exact .inl (okAdvances_resolveG fun _ => okAdvances_resolveS fun _ => okAdvances_advance rfl)
  | loadL => exact .inl (okAdvances_resolveL fun _ => okAdvances_resolveS fun _ => okAdvances_advance rfl)
  | storeG => exact .inl (okAdvances_resolveS fun _ => okAdvances_resolveG fun _ => okAdvances_advance rfl)
  | storeL => exact .inl (okAdvances_resolveS fun _ => okAdvances_resolveL fun _ => okAdvances_advance rfl)
  | loadII32 => exact .inl (okAdvances_resolveS fun _ => okAdvances_advance rfl)
  | addI32 | addU32 | subI32 | mulI32 => exact .inl (okAdvances_binopOperands fun _ _ => okAdvances_advance rfl)
  | divI32 =>
    refine .inl (okAdvances_binopOperands fun x y => ?_)
    split
    · exact okAdvances_raise s (by decide)
    · exact okAdvances_advance rfl
  | cmpI32 | cmpU32 => exact .inl (okAdvances_cmpOperands fun _ _ => okAdvances_advance rfl)
  | jmp o a b => exact .inr ⟨a, .inl ⟨o, a, b, rfl, rfl⟩, rfl⟩
  | jz o a b =>
    cases hz : zeroFlag s with
    | true => exact .inr ⟨a, .inr (.inl ⟨o, a, b, rfl, hz, rfl⟩), by simp [exec, execJz, hz]⟩
    | false =>
      have heq : exec (.jz o a b) s = advance s := by simp [exec, execJz, hz]
      exact .inl (heq ▸ okAdvances_advance rfl)
  | jnz o a b =>
    cases hz : zeroFlag s with
    | true =>
      have heq : exec (.jnz o a b) s = advance s := by simp [exec, execJnz, hz]
      exact .inl (heq ▸ okAdvances_advance rfl)
    | false => exact .inr ⟨a, .inr (.inr ⟨o, a, b, rfl, hz, rfl⟩), by simp [exec, execJnz, hz]⟩
  | printU32 | printF32 | printI32 => exact .inl (okAdvances_printOperand fun _ => okAdvances_advance rfl)

/-- A step that finds an instruction executes it (R68). -/
theorem step_of_fetches {s : State} {i : Instr} (hp : ProgramFits s) (hf : Fetches s i) : step s = exec i s := by
  simp only [step, fetch_of_fetches s i hp hf]

/-- Settles O47: an instruction that is no taken jump advances, and a taken jump has checked its target. -/
theorem okStepMovesPc : Obligations.OkStepMovesPc := by
  intro s t i hp hf hstep hok
  rw [step_of_fetches hp hf] at hstep
  rcases exec_okAdvances_or_takeJump i s with hadv | ⟨target, hjump, heq⟩
  · exact .inl (by rw [hadv t hstep hok, toNat_pc_add_ten hf.1])
  · rw [heq] at hstep
    rcases takeJump_cases target s with ⟨hlt, h⟩ | ⟨-, h⟩
    · obtain rfl := Host.Outcome.next.inj (hstep.symm.trans h)
      exact .inr ⟨hjump, hlt⟩
    · obtain rfl := Host.Outcome.next.inj (hstep.symm.trans h)
      cases hok

/-! ## Codes and buffer checks (R14, R21, R29, R30, R111) -/

/-- Settles O58: the lists of R14, R21 and R111 in order, code by code. -/
theorem codesAreTheSpecs : Obligations.CodesAreTheSpecs := ⟨rfl, rfl, rfl⟩

theorem resolveB_of_lt {i : Nat} {s : State} (h : i < s.buffers.length) (k : TypedBuffer → Result) :
    resolveB i s k = k s.buffers[i] := by
  simp [resolveB, readB, h]

theorem resolveB_of_ge {i : Nat} {s : State} (h : s.buffers.length ≤ i) (k : TypedBuffer → Result) :
    resolveB i s k = raise .errInvalidBufferIdx s := by
  simp [resolveB, readB, h]

/-- A position is valid below the capacity (R30). -/
@[simp] theorem validateBufferPos_iff (t : BufferType) (pos : Nat) :
    validateBufferPos t pos = true ↔ pos < t.capacity := decide_eq_true_iff

theorem resolveBufferPos_of_lt {b : TypedBuffer} {pos : Nat} (h : pos < b.bufferType.capacity) (s : State)
    (k : Result) : resolveBufferPos b pos s k = k := if_pos ((validateBufferPos_iff _ _).mpr h)

theorem resolveBufferPos_of_ge {b : TypedBuffer} {pos : Nat} (h : b.bufferType.capacity ≤ pos) (s : State)
    (k : Result) : resolveBufferPos b pos s k = raise .errInvalidBufferPos s :=
  if_neg fun hv => Nat.not_lt.mpr h ((validateBufferPos_iff _ _).mp hv)

/-- Every type but VOID fills the 256 bytes of element storage (R21). -/
theorem capacity_mul_elementBytes {t : BufferType} (h : t ≠ .void) : t.capacity * t.elementBytes = 256 := by
  cases t with
  | void => exact absurd rfl h
  | u8 | u16 | i32 | u32 | float => rfl

/-- Settles O59: the index check by the bank's length, the position check by the capacity. -/
theorem bufferChecksAreTheSpecs : Obligations.BufferChecksAreTheSpecs := by
  refine ⟨?_, validateBufferPos_iff, fun b pos s k => ?_, rfl, fun t => capacity_mul_elementBytes⟩
  · rintro s i k ⟨-, -, -, hlen⟩
    rw [← hlen]
    exact ⟨fun h => ⟨_, List.getElem?_eq_getElem h, resolveB_of_lt h k⟩, fun h => resolveB_of_ge h k⟩
  · exact ⟨fun h => resolveBufferPos_of_lt h s k, fun h => resolveBufferPos_of_ge h s k⟩

end Sys2Proof.Machine
end

section
/-! PROOFS. The instruction format (30_encoding.md): ten bytes are an opcode byte, a byte and two immediate words (R54
to R57), the default map, and the fields and field bits that execution ignores (R58, R59). -/

namespace Sys2Proof

/-! ## Immediate words and their bytes (R42, R57) -/

/-- The bytes of a word, side by side, are that word. -/
theorem append_extractLsb'_bytes (w : Word) :
    w.extractLsb' 24 8 ++ w.extractLsb' 16 8 ++ w.extractLsb' 8 8 ++ w.extractLsb' 0 8 = w := by
  rw [BitVec.extractLsb'_append_extractLsb'_eq_extractLsb' (start₂ := 24) (start₁ := 16) rfl,
    BitVec.extractLsb'_append_extractLsb'_eq_extractLsb' (start₂ := 16) (start₁ := 8) rfl,
    BitVec.extractLsb'_append_extractLsb'_eq_extractLsb' (start₂ := 8) (start₁ := 0) rfl]
  exact BitVec.extractLsb'_eq_self

/-- The bytes of four bytes side by side are those four. -/
theorem extractLsb'_append_bytes (b3 b2 b1 b0 : Byte) :
    (b3 ++ b2 ++ b1 ++ b0).extractLsb' 0 8 = b0 ∧ (b3 ++ b2 ++ b1 ++ b0).extractLsb' 8 8 = b1 ∧
    (b3 ++ b2 ++ b1 ++ b0).extractLsb' 16 8 = b2 ∧ (b3 ++ b2 ++ b1 ++ b0).extractLsb' 24 8 = b3 := by
  simp only [BitVec.extractLsb'_append_eq_ite]
  simp

/-- Every word is assembled from its bytes. -/
theorem exists_bytesOfWord (e : Endian) (w : Word) :
    ∃ b0 b1 b2 b3, bytesOfWord e w = [b0, b1, b2, b3] ∧ wordOfBytes e b0 b1 b2 b3 = w := by
  cases e with
  | little => exact ⟨_, _, _, _, rfl, append_extractLsb'_bytes w⟩
  | big => exact ⟨_, _, _, _, rfl, append_extractLsb'_bytes w⟩

/-- The bytes of an assembled word are those it was assembled from. -/
theorem bytesOfWord_wordOfBytes (e : Endian) (b0 b1 b2 b3 : Byte) :
    bytesOfWord e (wordOfBytes e b0 b1 b2 b3) = [b0, b1, b2, b3] := by
  cases e with
  | little =>
    obtain ⟨h0, h1, h2, h3⟩ := extractLsb'_append_bytes b3 b2 b1 b0
    simp only [bytesOfWord, wordOfBytes, h0, h1, h2, h3]
  | big =>
    obtain ⟨h0, h1, h2, h3⟩ := extractLsb'_append_bytes b0 b1 b2 b3
    simp only [bytesOfWord, wordOfBytes, h0, h1, h2, h3, List.reverse_cons, List.reverse_nil, List.nil_append,
      List.cons_append]

/-! ## The format R10, both ways (R54 to R57, R64) -/

/-- Nine bytes after an opcode byte are an `opd` and two immediate words, whatever they are (R62). -/
theorem exists_fields (e : Endian) {rest : List Byte} (h : rest.length = 9) :
    ∃ opd imm1 imm2, rest = opd :: (bytesOfWord e imm1 ++ bytesOfWord e imm2) := by
  match rest, h with
  | [opd, a0, a1, a2, a3, b0, b1, b2, b3], _ =>
    exact ⟨opd, wordOfBytes e a0 a1 a2 a3, wordOfBytes e b0 b1 b2 b3, by simp [bytesOfWord_wordOfBytes]⟩

/-- An encoding is the opcode's byte and the fields (R64). -/
theorem encode_make (m : OpcodeMap) (e : Endian) (op : Opcode) (opd : Byte) (imm1 imm2 : Word) :
    encode m e (Instr.make op opd imm1 imm2) = m.byteOf op :: opd :: (bytesOfWord e imm1 ++ bytesOfWord e imm2) := by
  simp [encode]

/-- Ten bytes that begin with an opcode's byte decode to that opcode, with the words the other bytes assemble to. -/
theorem decode_of_opcodeOf_some {m : OpcodeMap} {b : Byte} {op : Opcode} (h : m.opcodeOf b = some op) (e : Endian)
    (opd a0 a1 a2 a3 b0 b1 b2 b3 : Byte) :
    decode m e [b, opd, a0, a1, a2, a3, b0, b1, b2, b3] =
      .ok (Instr.make op opd (wordOfBytes e a0 a1 a2 a3) (wordOfBytes e b0 b1 b2 b3)) := by
  simp only [decode, h]

/-- As `decode_of_opcodeOf_some`, where the fields are given. -/
theorem decode_fields_of_some {m : OpcodeMap} {b : Byte} {op : Opcode} (h : m.opcodeOf b = some op) (e : Endian)
    (opd : Byte) (imm1 imm2 : Word) :
    decode m e (b :: opd :: (bytesOfWord e imm1 ++ bytesOfWord e imm2)) = .ok (Instr.make op opd imm1 imm2) := by
  obtain ⟨a0, a1, a2, a3, ha, rfl⟩ := exists_bytesOfWord e imm1
  obtain ⟨b0, b1, b2, b3, hb, rfl⟩ := exists_bytesOfWord e imm2
  rw [ha, hb]
  exact decode_of_opcodeOf_some h e opd a0 a1 a2 a3 b0 b1 b2 b3

/-- Bytes that begin with an unassigned opcode byte do not decode, whatever the fields (R61). -/
theorem decode_fields_of_none {m : OpcodeMap} {b : Byte} (h : m.opcodeOf b = none) (e : Endian)
    (opd : Byte) (imm1 imm2 : Word) :
    decode m e (b :: opd :: (bytesOfWord e imm1 ++ bytesOfWord e imm2)) = .error (.unassignedOpcode b) := by
  obtain ⟨a0, a1, a2, a3, ha, -⟩ := exists_bytesOfWord e imm1
  obtain ⟨b0, b1, b2, b3, hb, -⟩ := exists_bytesOfWord e imm2
  rw [ha, hb]
  simp [decode, h]

/-- Under a legal map, decoding undoes encoding. -/
theorem decode_encode {m : OpcodeMap} (hm : m.wf) (e : Endian) (i : Instr) : decode m e (encode m e i) = .ok i := by
  rw [← i.make_of_record, encode_make]
  exact decode_fields_of_some (m.opcodeOf_byteOf hm _) e _ _ _

/-- Settles O4: the bytes by the shape of an encoding, and the round trip opcode by opcode byte and word by word. -/
theorem decodeEncodeRoundTrip : Obligations.DecodeEncodeRoundTrip := fun m op o a b hm =>
  ⟨encode_make m .little op o a b, encode_make m .big op o a b, decode_encode hm⟩

/-- Settles O5: the opcode byte is that of the opcode found for it, and the other nine are the fields. -/
theorem encodeDecodeRoundTrip : Obligations.EncodeDecodeRoundTrip := by
  intro m e bytes i hlen hdec
  obtain ⟨b, rest, rfl⟩ := List.exists_cons_of_length_eq_add_one hlen
  obtain ⟨opd, imm1, imm2, rfl⟩ := exists_fields e (Nat.succ.inj hlen)
  cases hop : m.opcodeOf b with
  | none =>
    rw [decode_fields_of_none hop] at hdec
    cases hdec
  | some op =>
    rw [decode_fields_of_some hop] at hdec
    cases hdec
    rw [encode_make, m.byteOf_of_opcodeOf b op hop]

/-! ## The opcode bytes (R60 to R63) -/

/-- Over ten bytes, the opcode byte alone decides whether they decode. -/
theorem decode_error_iff (m : OpcodeMap) (e : Endian) (b : Byte) {rest : List Byte} (h : rest.length = 9) :
    (∃ r, decode m e (b :: rest) = .error r) ↔ m.assigns b = false := by
  obtain ⟨opd, imm1, imm2, rfl⟩ := exists_fields e h
  rw [← m.opcodeOf_eq_none]
  cases hop : m.opcodeOf b with
  | none => simp [decode_fields_of_none hop]
  | some op => simp [decode_fields_of_some hop]

/-- A byte is unassigned where it is no value of the map. -/
theorem OpcodeMap.assigns_eq_false_iff (m : OpcodeMap) (b : Byte) : m.assigns b = false ↔ b ∉ m.bytes := by
  simp [OpcodeMap.assigns]

/-- The values the default map leaves unassigned, by range (R61). -/
theorem default_assigns_eq_false_iff (b : Byte) : OpcodeMap.default.assigns b = false ↔
    (0x02 ≤ b.toNat ∧ b.toNat ≤ 0x0F) ∨ (0x15 ≤ b.toNat ∧ b.toNat ≤ 0x1F) ∨ (0x25 ≤ b.toNat ∧ b.toNat ≤ 0x2F) ∨
    (0x32 ≤ b.toNat ∧ b.toNat ≤ 0x3F) ∨ (0x43 ≤ b.toNat ∧ b.toNat ≤ 0x4F) ∨ (0x53 ≤ b.toNat ∧ b.toNat ≤ 0xFF) := by
  simp only [OpcodeMap.assigns_eq_false_iff, OpcodeMap.bytes, OpcodeMap.default, List.cons_append, List.nil_append,
    List.mem_cons, List.not_mem_nil, or_false, ← BitVec.toNat_inj, BitVec.reduceToNat]
  omega

/-- The values a map assigns, counted among all byte values, are its bytes. -/
theorem OpcodeMap.filter_assigns_perm {m : OpcodeMap} (hm : m.wf) :
    ((List.range 256).filter fun n => m.assigns (BitVec.ofNat 8 n)).Perm (m.bytes.map BitVec.toNat) := by
  refine (List.perm_ext_iff_of_nodup (List.nodup_range.filter _)
    (hm.map fun _ _ => BitVec.eq_of_toNat_eq)).mpr fun n => ?_
  simp only [List.mem_filter, List.mem_range, OpcodeMap.assigns, List.contains_iff_mem, List.mem_map]
  constructor
  · rintro ⟨hlt, hmem⟩
    exact ⟨_, hmem, (BitVec.toNat_ofNat n 8).trans (Nat.mod_eq_of_lt hlt)⟩
  · rintro ⟨b, hmem, rfl⟩
    exact ⟨b.isLt, by rwa [BitVec.ofNat_toNat, BitVec.setWidth_eq]⟩

/-- A legal map leaves 236 of the 256 byte values unassigned (R61). -/
theorem OpcodeMap.length_filter_not_assigns {m : OpcodeMap} (hm : m.wf) :
    ((List.range 256).filter fun n => !m.assigns (BitVec.ofNat 8 n)).length = 236 := by
  have hassigned := (OpcodeMap.filter_assigns_perm hm).length_eq
  have hsplit := (List.range 256).length_eq_length_filter_add fun n => m.assigns (BitVec.ofNat 8 n)
  rw [List.length_range, hassigned, List.length_map] at hsplit
  have hbytes : m.bytes.length = 20 := rfl
  omega

/-- The default map is legal (R60). -/
theorem default_wf : OpcodeMap.default.wf := by decide

/-- Settles O6: the opcode look-up is decoding's only way to fail, and a legal map's bytes are 20 of 256. -/
theorem unassignedOpcodesAreRejected : Obligations.UnassignedOpcodesAreRejected :=
  ⟨fun m e b _ h => decode_error_iff m e b h, default_assigns_eq_false_iff,
    OpcodeMap.length_filter_not_assigns default_wf⟩

/-- Settles O7: each row pairs an opcode with its byte and its instruction, so the laws of the format apply to it; the
worked encodings are computed. -/
theorem workedEncodings : Obligations.WorkedEncodings := by
  refine ⟨fun row hrow => ?_, rfl, rfl, rfl, rfl, rfl, rfl, rfl, rfl⟩
  obtain ⟨hbyte, hmake⟩ : OpcodeMap.default.byteOf row.1 = row.2.2 ∧ row.2.1 = Instr.make row.1 := by
    fin_cases hrow <;> exact ⟨rfl, rfl⟩
  rw [hmake, ← hbyte]
  exact ⟨rfl, fun e o a0 a1 a2 a3 b0 b1 b2 b3 a b => ⟨by rw [encode_make, List.head?_cons],
    decode_of_opcodeOf_some (OpcodeMap.default.opcodeOf_byteOf default_wf row.1) e o a0 a1 a2 a3 b0 b1 b2 b3⟩⟩

end Sys2Proof

namespace Sys2Proof.Machine

/-! ## What execution ignores of the fields (R58, R59) -/

/-- Words that agree modulo 256 are one masked index (R58). -/
theorem maskedIdx_congr {a a' : Word} (h : a.toNat % 256 = a'.toNat % 256) : maskedIdx a = maskedIdx a' := by
  rw [maskedIdx_eq, maskedIdx_eq, h]

theorem binopOperands_congr {a a' b b' : Word} (ha : maskedIdx a = maskedIdx a') (hb : maskedIdx b = maskedIdx b')
    (t : Tag) (o : Byte) (s : State) (k : Word → Word → Result) :
    binopOperands t o a b s k = binopOperands t o a' b' s k := by
  rw [binopOperands, binopOperands, ha, hb]

theorem cmpOperands_congr {a a' b b' : Word} (ha : maskedIdx a = maskedIdx a') (hb : maskedIdx b = maskedIdx b')
    (t : Tag) (s : State) (k : Word → Word → Result) : cmpOperands t a b s k = cmpOperands t a' b' s k := by
  rw [cmpOperands, cmpOperands, ha, hb]

theorem printOperand_congr {a a' : Word} (ha : maskedIdx a = maskedIdx a') (t : Tag) (s : State) (k : Word → Result) :
    printOperand t a s k = printOperand t a' s k := by
  rw [printOperand, printOperand, ha]

/-- Settles O9: each instruction takes its operands by one of the three forms, which see masked indices only. -/
theorem maskedIndexBitsAreIgnored : Obligations.MaskedIndexBitsAreIgnored := by
  intro s o a a' b b' ha hb
  have hbinop := binopOperands_congr (maskedIdx_congr ha) (maskedIdx_congr hb)
  have hcmp := cmpOperands_congr (maskedIdx_congr ha) (maskedIdx_congr hb)
  have hprint := printOperand_congr (maskedIdx_congr ha)
  simp only [List.forall_mem_cons, List.not_mem_nil, false_implies, implies_true, and_true]
  exact ⟨⟨hbinop .i32 o s _, hbinop .u32 o s _, hbinop .i32 o s _, hbinop .i32 o s _, hbinop .i32 o s _,
    hcmp .i32 s _, hcmp .u32 s _⟩, hprint .u32 s _, hprint .float s _, hprint .i32 s _⟩

/-- Settles O8: instruction by instruction, `exec` does not pass an ignored field on. -/
theorem ignoredFieldsHaveNoEffect : Obligations.IgnoredFieldsHaveNoEffect := by
  intro s o o' a a' b b'
  simp only [List.forall_mem_cons, List.not_mem_nil, false_implies, implies_true, and_true]
  exact ⟨⟨rfl, rfl⟩, ⟨rfl, rfl, rfl, rfl, rfl⟩, ⟨rfl, rfl⟩, rfl, rfl, rfl, rfl, rfl, rfl⟩

end Sys2Proof.Machine
end

section
/-! PROOFS. The execution cycle (40_execution_cycle.md): what the fetch decides (R68 to R74), that a step always answers
and an error changes nothing (R78 to R80), that a destination's old value takes no part (R76), and what no step reads
(R32, R44, R80). -/

namespace Sys2Proof.Machine

/-! ## What the fetch decides (R68 to R74) -/

/-- Settles O1: the fetch finds the instruction, and the step is its execution. -/
theorem stepRunsDecodedInstruction : Obligations.StepRunsDecodedInstruction := fun _ _ hp hf => step_of_fetches hp hf

/-- Settles O2: a fetch that overruns the loaded program reads no byte. -/
theorem stepReportsFetchOverrun : Obligations.StepReportsFetchOverrun := fun _ h => step_of_overrun (Nat.not_le.mpr h)

/-- The first of the ten bytes at `pc` is the opcode byte; nine follow it (R54, R55). -/
theorem exists_bytesAtPc_eq_cons (s : State) :
    ∃ rest, rest.length = 9 ∧ bytesAtPc s = s.program.read s.pc.toNat :: rest :=
  ⟨_, rfl, rfl⟩

/-- An opcode byte that the map does not assign, in the loaded program, is what the fetch finds (R61, R74). -/
theorem fetch_of_unassigned {s : State} (hp : ProgramFits s) (hin : InProgram s)
    (h : s.params.opcodeMap.assigns (s.program.read s.pc.toNat) = false) : fetch s = .illegalOpcode := by
  obtain ⟨rest, hlen, hbytes⟩ := exists_bytesAtPc_eq_cons s
  obtain ⟨opd, imm1, imm2, rfl⟩ := exists_fields s.params.immEndian hlen
  have hdec := decode_fields_of_none ((OpcodeMap.opcodeOf_eq_none _ _).mpr h) s.params.immEndian opd imm1 imm2
  simp only [fetch, hin, if_true, readProgramBytes_atPc s hp hin, hbytes, hdec]

/-- Settles O3: the ten bytes do not decode, and the step reports so. -/
theorem stepReportsUnassignedOpcode : Obligations.StepReportsUnassignedOpcode := fun s hp hin h => by
  simp only [step, fetch_of_unassigned hp hin h, raise_eq]

/-! ## A step always answers, and an error changes nothing (R78 to R80) -/

/-- Settles O42: a step that does not return OK has raised an error, from the state it started in. -/
theorem failingStepChangesNothing : Obligations.FailingStepChangesNothing := by
  intro s t h hne
  rcases step_next_cases s t h with ⟨e, -, rfl⟩ | ⟨i, u, target, -, -, -, -, rfl⟩
  · rfl
  · exact absurd rfl hne

/-- Every instruction answers a next state: it raises an error or commits. -/
theorem exists_exec_eq_next (i : Instr) (s : State) : ∃ t, exec i s = .next t := by
  cases exec_ends i s with
  | raised e _ h => exact ⟨_, h⟩
  | committed u target _ _ h => exact ⟨_, h⟩

/-- Settles O44: only an absent program byte stops a step, and a program that fits has none. -/
theorem stepAlwaysCompletes : Obligations.StepAlwaysCompletes := by
  intro s hs
  rcases step_cases s with ⟨i, -, -, h⟩ | h | h | ⟨habsent, -⟩
  · exact h ▸ exists_exec_eq_next i s
  · exact ⟨_, h⟩
  · exact ⟨_, h⟩
  · exact absurd habsent (fetch_ne_absent s hs.program)

/-! ## A destination's old value takes no part (R76) -/

/-- What the one answer is with status OK, the other is too. -/
def OkCarries (r r' : Result) : Prop := ∀ t, t.stepStatus = .ok → r = .next t → r' = .next t

/-- An error carries no OK. -/
theorem okCarries_raise {e : Status} (he : e ≠ .ok) (s : State) (r' : Result) : OkCarries (raise e s) r' := by
  rintro t hok ⟨⟩
  exact absurd hok he

/-- Of two writes to one slot the later one counts, tag and payload. -/
theorem writeS_writeS (d : Nat) (v w : TypedValue) (s : State) : writeS d w (writeS d v s) = writeS d w s := by
  simp only [writeS, List.set_set]

/-- So a commit of the later write does not see the earlier one. -/
theorem okCarries_advance_writeS (d : Nat) (v w : TypedValue) (s : State) :
    OkCarries (advance (writeS d w s)) (advance (writeS d w (writeS d v s))) := by
  rw [writeS_writeS]
  exact fun _ _ h => h

/-- The index check of a destination passes whatever the slot holds. -/
theorem okCarries_resolveS_destination {d : Nat} (v : TypedValue) {s : State} {r r' : Result} (h : OkCarries r r') :
    OkCarries (resolveS d s fun _ => r) (resolveS d (writeS d v s) fun _ => r') := by
  rcases resolveS_cases d s fun _ => r with ⟨w, hw, heq⟩ | ⟨-, heq⟩
  · have hlt : d < (writeS d v s).stackVars.length := by simpa using (List.getElem?_eq_some_iff.mp hw).1
    rwa [heq, resolveS_of_lt hlt]
  · exact heq ▸ okCarries_raise (by decide) s _

/-- A source other than the slot written reads as before. -/
theorem okCarries_resolveS_source {i d : Nat} (hne : d ≠ i) (v : TypedValue) {s : State} {k k' : TypedValue → Result}
    (h : ∀ w, OkCarries (k w) (k' w)) : OkCarries (resolveS i s k) (resolveS i (writeS d v s) k') := by
  rcases resolveS_cases i s k with ⟨w, hw, heq⟩ | ⟨-, heq⟩
  · rw [heq, resolveS_some ((List.getElem?_set_ne hne).trans hw)]
    exact h w
  · exact heq ▸ okCarries_raise (by decide) s _

theorem okCarries_resolveG {i d : Nat} (v : TypedValue) {s : State} {k k' : TypedValue → Result}
    (h : ∀ w, OkCarries (k w) (k' w)) : OkCarries (resolveG i s k) (resolveG i (writeS d v s) k') := by
  rcases resolveG_cases i s k with ⟨w, hw, heq⟩ | ⟨-, heq⟩
  · rw [heq, resolveG_some (s := writeS d v s) hw]
    exact h w
  · exact heq ▸ okCarries_raise (by decide) s _

theorem okCarries_resolveL {i d : Nat} (v : TypedValue) {s : State} {k k' : TypedValue → Result}
    (h : ∀ w, OkCarries (k w) (k' w)) : OkCarries (resolveL i s k) (resolveL i (writeS d v s) k') := by
  rcases resolveL_cases i s k with ⟨w, hw, heq⟩ | ⟨-, heq⟩
  · rw [heq, resolveL_some (s := writeS d v s) hw]
    exact h w
  · exact heq ▸ okCarries_raise (by decide) s _

theorem okCarries_requireTags {t : Tag} {v w : TypedValue} {s s' : State} {k k' : Word → Word → Result}
    (h : ∀ x y, OkCarries (k x y) (k' x y)) : OkCarries (requireTags t v w s k) (requireTags t v w s' k') := by
  by_cases ht : v.tag = t ∧ w.tag = t
  · rw [requireTags_eq ht.1 ht.2, requireTags_eq ht.1 ht.2]
    exact h _ _
  · rw [requireTags_ne (not_and_or.mp ht)]
    exact okCarries_raise (by decide) s _

/-- The operands of an arithmetic instruction whose sources are other slots than its destination (R87). -/
theorem okCarries_binopOperands {t : Tag} {opd : Byte} {imm1 imm2 : Word} (h1 : imm1.toNat % 256 ≠ opd.toNat)
    (h2 : imm2.toNat % 256 ≠ opd.toNat) (v : TypedValue) {s : State} {k k' : Word → Word → Result}
    (h : ∀ x y, OkCarries (k x y) (k' x y)) :
    OkCarries (binopOperands t opd imm1 imm2 s k) (binopOperands t opd imm1 imm2 (writeS opd.toNat v s) k') := by
  rw [← maskedIdx_eq] at h1 h2
  exact okCarries_resolveS_source h1.symm v fun _ => okCarries_resolveS_source h2.symm v fun _ =>
    okCarries_resolveS_destination v (okCarries_requireTags h)

/-- Settles O22: no operand form sees the destination's old value, and the commit overwrites it. -/
theorem destinationsOldValueIsIrrelevant : Obligations.DestinationsOldValueIsIrrelevant := by
  intro s t opd imm1 imm2 v hok
  constructor
  · have hload (w : TypedValue) :=
      okCarries_resolveS_destination (d := opd.toNat) (s := s) v (okCarries_advance_writeS opd.toNat v w s)
    simp only [List.forall_mem_cons, List.not_mem_nil, false_implies, implies_true, and_true]
    exact ⟨okCarries_resolveG v hload t hok, okCarries_resolveL v hload t hok, hload (.i32 imm1) t hok⟩
  · intro h1 h2
    have hbinop (T : Tag) (f : Word → Word → Word) :
        OkCarries (binop T f opd imm1 imm2 s) (binop T f opd imm1 imm2 (writeS opd.toNat v s)) :=
      okCarries_binopOperands h1 h2 v fun x y => okCarries_advance_writeS opd.toNat v (.ofTag T (f x y)) s
    have hdiv : OkCarries (execDivI32 opd imm1 imm2 s) (execDivI32 opd imm1 imm2 (writeS opd.toNat v s)) := by
      refine okCarries_binopOperands h1 h2 v fun x y => ?_
      split
      · exact okCarries_raise (by decide) s _
      · exact okCarries_advance_writeS opd.toNat v _ s
    simp only [List.forall_mem_cons, List.not_mem_nil, false_implies, implies_true, and_true]
    exact ⟨hbinop .i32 addI32 t hok, hbinop .u32 addU32 t hok, hbinop .i32 subI32 t hok, hbinop .i32 mulI32 t hok,
      hdiv t hok⟩

/-! ## What no step reads (R32, R44, R80) -/

/-- The fetch reads `pc`, `program_len` and bytes of the loaded program only. -/
theorem fetch_eq_of_seenAlike {s₁ s₂ : State} (h : SeenAlike s₁ s₂) : fetch s₁ = fetch s₂ := by
  by_cases hin : InProgram s₁
  · have hbytes : readProgramBytes instrSize s₁.pc.toNat s₁ = readProgramBytes instrSize s₁.pc.toNat s₂ :=
      readProgramBytes_congr _ _ s₁ s₂ h.params fun k hk => h.program _ ((Nat.add_lt_add_left hk _).trans_le hin)
    simp only [fetch, ← h.params, ← h.programLen, ← h.pc, hbytes]
  · have hin₂ : ¬ InProgram s₂ := by rwa [InProgram, ← h.pc, ← h.programLen]
    rw [fetch_of_overrun s₁ hin, fetch_of_overrun s₂ hin₂]

theorem seenAlike_writeS {s₁ s₂ : State} (h : SeenAlike s₁ s₂) (k : Nat) (v : TypedValue) :
    SeenAlike (writeS k v s₁) (writeS k v s₂) :=
  { h with stackVars := congrArg (List.set · k v) h.stackVars }

theorem seenAlike_writeG {s₁ s₂ : State} (h : SeenAlike s₁ s₂) (k : Nat) (v : TypedValue) :
    SeenAlike (writeG k v s₁) (writeG k v s₂) :=
  { h with globals := congrArg (List.set · k v) h.globals }

theorem seenAlike_writeL {s₁ s₂ : State} (h : SeenAlike s₁ s₂) (k : Nat) (v : TypedValue) :
    SeenAlike (writeL k v s₁) (writeL k v s₂) :=
  { h with locals := congrArg (List.set · k v) h.locals }

/-- A comparison makes the whole register, ZERO included, out of what it compares (R96). -/
theorem seenAlike_writeFlags {s₁ s₂ : State} (h : SeenAlike s₁ s₂) (f : BitVec 8) :
    SeenAlike (writeFlags f s₁) (writeFlags f s₂) :=
  { h with zero := rfl }

theorem seenAlike_emit {s₁ s₂ : State} (h : SeenAlike s₁ s₂) (k : EventKind) (w : Word) :
    SeenAlike (emit k w s₁) (emit k w s₂) :=
  { h with }

/-- Two answers, from `s₁` and from `s₂`, of which the host sees the same: the same status and the same events, at most
one, in states that again agree on all a step may read. -/
def AnswersAlike (s₁ s₂ : State) (r₁ r₂ : Result) : Prop :=
  ∀ t₁, r₁ = .next t₁ → ∃ t₂ ev, r₂ = .next t₂ ∧ t₂.stepStatus = t₁.stepStatus ∧ SeenAlike t₁ t₂ ∧
    t₁.output = s₁.output ++ ev ∧ t₂.output = s₂.output ++ ev ∧ ev.length ≤ 1

section
variable {s₁ s₂ : State}

theorem answersAlike_raise (h : SeenAlike s₁ s₂) (e : Status) : AnswersAlike s₁ s₂ (raise e s₁) (raise e s₂) := by
  rintro t₁ ⟨⟩
  exact ⟨_, [], rfl, rfl, { h with }, by simp, by simp, by simp⟩

/-- A commit of writes that agree, with the same events sent. -/
theorem answersAlike_commit {u₁ u₂ : State} (hu : SeenAlike u₁ u₂) {ev : List OutEvent} (hev : ev.length ≤ 1)
    (h₁ : u₁.output = s₁.output ++ ev) (h₂ : u₂.output = s₂.output ++ ev) (target : Word) :
    AnswersAlike s₁ s₂ (commit target u₁) (commit target u₂) := by
  rintro t₁ ⟨⟩
  exact ⟨_, ev, rfl, rfl, { hu with pc := rfl }, h₁, h₂, hev⟩

/-- The default successor is read off `pc` (R73). -/
theorem answersAlike_advance {u₁ u₂ : State} (hu : SeenAlike u₁ u₂) {ev : List OutEvent} (hev : ev.length ≤ 1)
    (h₁ : u₁.output = s₁.output ++ ev) (h₂ : u₂.output = s₂.output ++ ev) :
    AnswersAlike s₁ s₂ (advance u₁) (advance u₂) := by
  rw [advance, advance, nextPc, nextPc, hu.pc]
  exact answersAlike_commit hu hev h₁ h₂ _

/-- An instruction that sends no event. -/
theorem answersAlike_advance_silent {u₁ u₂ : State} (hu : SeenAlike u₁ u₂) (h₁ : u₁.output = s₁.output)
    (h₂ : u₂.output = s₂.output) : AnswersAlike s₁ s₂ (advance u₁) (advance u₂) :=
  answersAlike_advance hu (ev := []) (Nat.zero_le 1) (by simpa using h₁) (by simpa using h₂)

variable (h : SeenAlike s₁ s₂)
include h

theorem answersAlike_resolveS (i : Nat) {k₁ k₂ : TypedValue → Result} (hk : ∀ v, AnswersAlike s₁ s₂ (k₁ v) (k₂ v)) :
    AnswersAlike s₁ s₂ (resolveS i s₁ k₁) (resolveS i s₂ k₂) := by
  rw [resolveS, resolveS, readS, readS, h.stackVars]
  split
  · exact hk _
  · exact answersAlike_raise h _

theorem answersAlike_resolveG (i : Nat) {k₁ k₂ : TypedValue → Result} (hk : ∀ v, AnswersAlike s₁ s₂ (k₁ v) (k₂ v)) :
    AnswersAlike s₁ s₂ (resolveG i s₁ k₁) (resolveG i s₂ k₂) := by
  rw [resolveG, resolveG, readG, readG, h.globals]
  split
  · exact hk _
  · exact answersAlike_raise h _

theorem answersAlike_resolveL (i : Nat) {k₁ k₂ : TypedValue → Result} (hk : ∀ v, AnswersAlike s₁ s₂ (k₁ v) (k₂ v)) :
    AnswersAlike s₁ s₂ (resolveL i s₁ k₁) (resolveL i s₂ k₂) := by
  rw [resolveL, resolveL, readL, readL, h.locals]
  split
  · exact hk _
  · exact answersAlike_raise h _

theorem answersAlike_requireTag (t : Tag) (v : TypedValue) {k₁ k₂ : Word → Result}
    (hk : ∀ x, AnswersAlike s₁ s₂ (k₁ x) (k₂ x)) : AnswersAlike s₁ s₂ (requireTag t v s₁ k₁) (requireTag t v s₂ k₂) := by
  unfold requireTag
  split
  · exact hk _
  · exact answersAlike_raise h _

theorem answersAlike_requireTags (t : Tag) (v w : TypedValue) {k₁ k₂ : Word → Word → Result}
    (hk : ∀ x y, AnswersAlike s₁ s₂ (k₁ x y) (k₂ x y)) :
    AnswersAlike s₁ s₂ (requireTags t v w s₁ k₁) (requireTags t v w s₂ k₂) :=
  answersAlike_requireTag h t v fun _ => answersAlike_requireTag h t w fun _ => hk _ _

theorem answersAlike_binopOperands (t : Tag) (opd : Byte) (imm1 imm2 : Word) {k₁ k₂ : Word → Word → Result}
    (hk : ∀ x y, AnswersAlike s₁ s₂ (k₁ x y) (k₂ x y)) :
    AnswersAlike s₁ s₂ (binopOperands t opd imm1 imm2 s₁ k₁) (binopOperands t opd imm1 imm2 s₂ k₂) :=
  answersAlike_resolveS h _ fun _ => answersAlike_resolveS h _ fun _ => answersAlike_resolveS h _ fun _ =>
    answersAlike_requireTags h t _ _ hk

/-- `S[k] <- v` and the default successor. -/
theorem answersAlike_advance_writeS (k : Nat) (v : TypedValue) :
    AnswersAlike s₁ s₂ (advance (writeS k v s₁)) (advance (writeS k v s₂)) :=
  answersAlike_advance_silent (seenAlike_writeS h k v) rfl rfl

theorem answersAlike_binop (t : Tag) (f : Word → Word → Word) (opd : Byte) (imm1 imm2 : Word) :
    AnswersAlike s₁ s₂ (binop t f opd imm1 imm2 s₁) (binop t f opd imm1 imm2 s₂) :=
  answersAlike_binopOperands h t opd imm1 imm2 fun _ _ => answersAlike_advance_writeS h _ _

/-- The zero divisor is a matter of the operands, and DIV_OVF_RESULT one of the build (R92). -/
theorem answersAlike_execDivI32 (opd : Byte) (imm1 imm2 : Word) :
    AnswersAlike s₁ s₂ (execDivI32 opd imm1 imm2 s₁) (execDivI32 opd imm1 imm2 s₂) := by
  refine answersAlike_binopOperands h .i32 opd imm1 imm2 fun x y => ?_
  rw [h.params]
  split
  · exact answersAlike_raise h _
  · exact answersAlike_advance_writeS h _ _

theorem answersAlike_compareSlots (t : Tag) (lt : Word → Word → Bool) (imm1 imm2 : Word) :
    AnswersAlike s₁ s₂ (compareSlots t lt imm1 imm2 s₁) (compareSlots t lt imm1 imm2 s₂) :=
  answersAlike_resolveS h _ fun _ => answersAlike_resolveS h _ fun _ => answersAlike_requireTags h t _ _ fun _ _ =>
    answersAlike_advance_silent (seenAlike_writeFlags h _) rfl rfl

/-- The one shape that sends an event. -/
theorem answersAlike_printSlot (t : Tag) (kind : EventKind) (imm1 : Word) :
    AnswersAlike s₁ s₂ (printSlot t kind imm1 s₁) (printSlot t kind imm1 s₂) :=
  answersAlike_resolveS h _ fun _ => answersAlike_requireTag h t _ fun w =>
    answersAlike_advance (seenAlike_emit h kind w) (List.length_singleton).le rfl rfl

theorem answersAlike_takeJump (imm1 : Word) : AnswersAlike s₁ s₂ (takeJump imm1 s₁) (takeJump imm1 s₂) := by
  rw [takeJump, takeJump, h.programLen]
  split
  · exact answersAlike_commit h (ev := []) (Nat.zero_le 1) (by simp) (by simp) imm1
  · exact answersAlike_raise h _

/-- Every instruction answers alike from states that agree on what a step may read. -/
theorem exec_answersAlike (i : Instr) : AnswersAlike s₁ s₂ (exec i s₁) (exec i s₂) := by
  have hadvance : AnswersAlike s₁ s₂ (advance s₁) (advance s₂) := answersAlike_advance_silent h rfl rfl
  cases i with
  | nop => exact hadvance
  | halt => exact answersAlike_raise h _
  | loadG =>
    exact answersAlike_resolveG h _ fun _ => answersAlike_resolveS h _ fun _ => answersAlike_advance_writeS h _ _
  | loadL =>
    exact answersAlike_resolveL h _ fun _ => answersAlike_resolveS h _ fun _ => answersAlike_advance_writeS h _ _
  | storeG =>
    exact answersAlike_resolveS h _ fun _ => answersAlike_resolveG h _ fun _ =>
      answersAlike_advance_silent (seenAlike_writeG h _ _) rfl rfl
  | storeL =>
    exact answersAlike_resolveS h _ fun _ => answersAlike_resolveL h _ fun _ =>
      answersAlike_advance_silent (seenAlike_writeL h _ _) rfl rfl
  | loadII32 => exact answersAlike_resolveS h _ fun _ => answersAlike_advance_writeS h _ _
  | addI32 | addU32 | subI32 | mulI32 => exact answersAlike_binop h _ _ _ _ _
  | divI32 => exact answersAlike_execDivI32 h _ _ _
  | cmpI32 | cmpU32 => exact answersAlike_compareSlots h _ _ _ _
  | jmp => exact answersAlike_takeJump h _
  | jz =>
    rw [exec, exec, execJz, execJz, h.zero]
    split
    · exact answersAlike_takeJump h _
    · exact hadvance
  | jnz =>
    rw [exec, exec, execJnz, execJnz, h.zero]
    split
    · exact hadvance
    · exact answersAlike_takeJump h _
  | printU32 | printF32 | printI32 => exact answersAlike_printSlot h _ _ _

end

/-- Settles O52: both states fetch the same, and execute it or raise its error alike. -/
theorem stepIgnoresWhatIsNotRead : Obligations.StepIgnoresWhatIsNotRead := by
  intro s₁ s₂ t₁ h
  suffices hstep : AnswersAlike s₁ s₂ (step s₁) (step s₂) from hstep t₁
  rw [step, step, ← fetch_eq_of_seenAlike h]
  split
  · exact exec_answersAlike h _
  · exact answersAlike_raise h _
  · exact answersAlike_raise h _
  · rintro t ⟨⟩

end Sys2Proof.Machine
end

section
/-! PROOFS. Data movement (41_data_movement.md): what each copy and LOAD_I_I32 answers in every state (R82 to R86), that
no other instruction makes a value out of nothing (R86), and R84's round trip. -/

namespace Sys2Proof.Machine

open Sys2Proof.Laws

/-! ## What a load or a store answers where its index checks pass (R82 to R86) -/

theorem resolveG_of_lt {i : Nat} {s : State} (h : i < s.globals.length) (k : TypedValue → Result) :
    resolveG i s k = k s.globals[i] := resolveG_some (List.getElem?_eq_getElem h) k

theorem resolveL_of_lt {i : Nat} {s : State} (h : i < s.locals.length) (k : TypedValue → Result) :
    resolveL i s k = k s.locals[i] := resolveL_some (List.getElem?_eq_getElem h) k

section
variable {s : State} {opd : Byte} {imm1 imm2 : Word}

theorem exec_loadG_of_lt (hsrc : imm1.toNat < s.globals.length) (hdst : opd.toNat < s.stackVars.length) :
    exec (.loadG opd imm1 imm2) s = advance (writeS opd.toNat s.globals[imm1.toNat] s) :=
  (resolveG_of_lt hsrc _).trans (resolveS_of_lt hdst _)

theorem exec_loadL_of_lt (hsrc : imm1.toNat < s.locals.length) (hdst : opd.toNat < s.stackVars.length) :
    exec (.loadL opd imm1 imm2) s = advance (writeS opd.toNat s.locals[imm1.toNat] s) :=
  (resolveL_of_lt hsrc _).trans (resolveS_of_lt hdst _)

theorem exec_storeG_of_lt (hsrc : opd.toNat < s.stackVars.length) (hdst : imm1.toNat < s.globals.length) :
    exec (.storeG opd imm1 imm2) s = advance (writeG imm1.toNat s.stackVars[opd.toNat] s) :=
  (resolveS_of_lt hsrc _).trans (resolveG_of_lt hdst _)

theorem exec_storeL_of_lt (hsrc : opd.toNat < s.stackVars.length) (hdst : imm1.toNat < s.locals.length) :
    exec (.storeL opd imm1 imm2) s = advance (writeL imm1.toNat s.stackVars[opd.toNat] s) :=
  (resolveS_of_lt hsrc _).trans (resolveL_of_lt hdst _)

theorem exec_loadII32_of_lt (hdst : opd.toNat < s.stackVars.length) :
    exec (.loadII32 opd imm1 imm2) s = advance (writeS opd.toNat (.i32 imm1) s) :=
  resolveS_of_lt hdst _

end

/-! ## The four copies (R82 to R85) -/

/-- Settles O10: the global's check comes first, then the destination's; past both, the copy commits. -/
theorem loadGCopiesTheGlobal : Obligations.LoadGCopiesTheGlobal := by
  rintro s opd imm1 imm2 ⟨hG, -, hS, -⟩
  rw [← hG, ← hS]
  refine ⟨fun hsrc hdst => ?copies, fun hsrc => ?badSource, fun hsrc hdst => ?badDestination, fun m e => ?encoding⟩
  case copies => exact ⟨_, List.getElem?_eq_getElem hsrc, exec_loadG_of_lt hsrc hdst⟩
  case badSource => exact resolveG_of_ge hsrc _
  case badDestination => exact (resolveG_of_lt hsrc _).trans (resolveS_of_ge hdst _)
  case encoding => exact (EncodingShape.loadG opd imm1 imm2 m e).2

/-- Settles O11: as O10, with the local's check; `sp` is not looked at. -/
theorem loadLCopiesTheLocal : Obligations.LoadLCopiesTheLocal := by
  rintro s opd imm1 imm2 ⟨-, hL, hS, -⟩
  rw [← hL, ← hS]
  refine ⟨fun hsrc hdst => ?copies, fun hsrc => ?badSource, fun hsrc hdst => ?badDestination, fun m e => ?encoding⟩
  case copies => exact ⟨_, List.getElem?_eq_getElem hsrc, exec_loadL_of_lt hsrc hdst⟩
  case badSource => exact resolveL_of_ge hsrc _
  case badDestination => exact (resolveL_of_lt hsrc _).trans (resolveS_of_ge hdst _)
  case encoding => exact (EncodingShape.loadL opd imm1 imm2 m e).2

/-- Settles O12: the stack var is the source, so its check comes first, then the global's. -/
theorem storeGCopiesTheStackVar : Obligations.StoreGCopiesTheStackVar := by
  rintro s opd imm1 imm2 ⟨hG, -, hS, -⟩
  rw [← hG, ← hS]
  refine ⟨fun hsrc hdst => ?copies, fun hsrc => ?badSource, fun hsrc hdst => ?badDestination, fun m e => ?encoding⟩
  case copies => exact ⟨_, List.getElem?_eq_getElem hsrc, exec_storeG_of_lt hsrc hdst⟩
  case badSource => exact resolveS_of_ge hsrc _
  case badDestination => exact (resolveS_of_lt hsrc _).trans (resolveG_of_ge hdst _)
  case encoding => exact (EncodingShape.storeG opd imm1 imm2 m e).2

/-- Settles O13: as O12, with the local's check second. -/
theorem storeLCopiesTheStackVar : Obligations.StoreLCopiesTheStackVar := by
  rintro s opd imm1 imm2 ⟨-, hL, hS, -⟩
  rw [← hL, ← hS]
  refine ⟨fun hsrc hdst => ?copies, fun hsrc => ?badSource, fun hsrc hdst => ?badDestination, fun m e => ?encoding⟩
  case copies => exact ⟨_, List.getElem?_eq_getElem hsrc, exec_storeL_of_lt hsrc hdst⟩
  case badSource => exact resolveS_of_ge hsrc _
  case badDestination => exact (resolveS_of_lt hsrc _).trans (resolveL_of_ge hdst _)
  case encoding => exact (EncodingShape.storeL opd imm1 imm2 m e).2

/-! ## R84's round trip -/

/-- Settles O15: the store writes back into `G[imm1]` the very value that the load took from it. -/
theorem loadGThenStoreGRoundTrips : Obligations.LoadGThenStoreGRoundTrips := by
  rintro s opd imm1 imm2 imm2' ⟨hG, -, hS, -⟩ hsrc hdst
  rw [← hG] at hsrc
  rw [← hS] at hdst
  have hload := exec_loadG_of_lt (imm2 := imm2) hsrc hdst
  rw [advance_eq] at hload
  refine ⟨_, _, hload, exec_storeG_of_lt ((List.length_set).symm ▸ hdst) hsrc, rfl, rfl, ?globals, ?slot, ?pc⟩
  case globals => simp
  case slot => simp [hsrc, hdst]
  case pc => exact BitVec.add_assoc s.pc 10 10

/-! ## Only LOAD_I_I32 makes a value out of nothing (R86) -/

/-- Every slot is VOID, bank by bank. -/
structure AllVoid (s : State) : Prop where
  globals : ∀ v ∈ s.globals, v = .void
  locals : ∀ v ∈ s.locals, v = .void
  stackVars : ∀ v ∈ s.stackVars, v = .void

theorem allVoid_iff (s : State) : AllVoid s ↔ ∀ v ∈ slots s, v = .void := by
  constructor
  · rintro ⟨hG, hL, hS⟩
    exact List.forall_mem_append.mpr ⟨List.forall_mem_append.mpr ⟨hG, hL⟩, hS⟩
  · intro h
    obtain ⟨hGL, hS⟩ := List.forall_mem_append.mp h
    obtain ⟨hG, hL⟩ := List.forall_mem_append.mp hGL
    exact ⟨hG, hL, hS⟩

/-- VOID written into a bank of VOID slots. -/
theorem eq_void_of_mem_set {bank : List TypedValue} (h : ∀ v ∈ bank, v = .void) (k : Nat) :
    ∀ v ∈ bank.set k .void, v = .void :=
  fun v hv => (List.mem_or_eq_of_mem_set hv).elim (h v) id

/-- A next state answered has only VOID slots. -/
def LeavesVoid (r : Result) : Prop := ∀ t, r = .next t → AllVoid t

theorem leavesVoid_commit {u : State} (h : AllVoid u) (target : Word) : LeavesVoid (commit target u) := by
  rintro t ⟨⟩
  exact { h with }

theorem leavesVoid_advance {u : State} (h : AllVoid u) : LeavesVoid (advance u) := leavesVoid_commit h _

section
variable {s : State} (hs : AllVoid s)
include hs

theorem leavesVoid_raise (e : Status) : LeavesVoid (raise e s) := by
  rintro t ⟨⟩
  exact { hs with }

theorem leavesVoid_advance_writeS (k : Nat) : LeavesVoid (advance (writeS k .void s)) :=
  leavesVoid_advance { hs with stackVars := eq_void_of_mem_set hs.stackVars k }

theorem leavesVoid_advance_writeG (k : Nat) : LeavesVoid (advance (writeG k .void s)) :=
  leavesVoid_advance { hs with globals := eq_void_of_mem_set hs.globals k }

theorem leavesVoid_advance_writeL (k : Nat) : LeavesVoid (advance (writeL k .void s)) :=
  leavesVoid_advance { hs with locals := eq_void_of_mem_set hs.locals k }

/-- The slot that an index check yields is VOID. -/
theorem leavesVoid_resolveS {i : Nat} {k : TypedValue → Result} (hk : LeavesVoid (k .void)) :
    LeavesVoid (resolveS i s k) := by
  rcases resolveS_cases i s k with ⟨v, hv, heq⟩ | ⟨-, heq⟩
  · rwa [heq, hs.stackVars v (List.mem_of_getElem? hv)]
  · exact heq ▸ leavesVoid_raise hs _

theorem leavesVoid_resolveG {i : Nat} {k : TypedValue → Result} (hk : LeavesVoid (k .void)) :
    LeavesVoid (resolveG i s k) := by
  rcases resolveG_cases i s k with ⟨v, hv, heq⟩ | ⟨-, heq⟩
  · rwa [heq, hs.globals v (List.mem_of_getElem? hv)]
  · exact heq ▸ leavesVoid_raise hs _

theorem leavesVoid_resolveL {i : Nat} {k : TypedValue → Result} (hk : LeavesVoid (k .void)) :
    LeavesVoid (resolveL i s k) := by
  rcases resolveL_cases i s k with ⟨v, hv, heq⟩ | ⟨-, heq⟩
  · rwa [heq, hs.locals v (List.mem_of_getElem? hv)]
  · exact heq ▸ leavesVoid_raise hs _

/-- The type check of a VOID source fails (R16), whatever the rest of the instruction is. -/
theorem leavesVoid_requireTag {t : Tag} (ht : t ≠ .void) (k : Word → Result) :
    LeavesVoid (requireTag t .void s k) :=
  requireTag_ne (tag_ne_of_void ht rfl) s k ▸ leavesVoid_raise hs _

theorem leavesVoid_binopOperands {t : Tag} (ht : t ≠ .void) (opd : Byte) (imm1 imm2 : Word)
    (k : Word → Word → Result) : LeavesVoid (binopOperands t opd imm1 imm2 s k) :=
  leavesVoid_resolveS hs <| leavesVoid_resolveS hs <| leavesVoid_resolveS hs <| leavesVoid_requireTag hs ht _

theorem leavesVoid_compareSlots {t : Tag} (ht : t ≠ .void) (lt : Word → Word → Bool) (imm1 imm2 : Word) :
    LeavesVoid (compareSlots t lt imm1 imm2 s) :=
  leavesVoid_resolveS hs <| leavesVoid_resolveS hs <| leavesVoid_requireTag hs ht _

theorem leavesVoid_printSlot {t : Tag} (ht : t ≠ .void) (kind : EventKind) (imm1 : Word) :
    LeavesVoid (printSlot t kind imm1 s) :=
  leavesVoid_resolveS hs <| leavesVoid_requireTag hs ht _

theorem leavesVoid_takeJump (imm1 : Word) : LeavesVoid (takeJump imm1 s) := by
  rcases takeJump_cases imm1 s with ⟨-, heq⟩ | ⟨-, heq⟩
  · exact heq ▸ leavesVoid_commit hs imm1
  · exact heq ▸ leavesVoid_raise hs _

/-- Every other instruction copies a VOID, or fails its type check, or writes no slot. -/
theorem exec_isLoadII32_or_leavesVoid (i : Instr) : (∃ o a b, i = .loadII32 o a b) ∨ LeavesVoid (exec i s) := by
  cases i with
  | nop => exact .inr (leavesVoid_advance hs)
  | halt => exact .inr (leavesVoid_raise hs _)
  | loadG => exact .inr (leavesVoid_resolveG hs (leavesVoid_resolveS hs (leavesVoid_advance_writeS hs _)))
  | loadL => exact .inr (leavesVoid_resolveL hs (leavesVoid_resolveS hs (leavesVoid_advance_writeS hs _)))
  | storeG => exact .inr (leavesVoid_resolveS hs (leavesVoid_resolveG hs (leavesVoid_advance_writeG hs _)))
  | storeL => exact .inr (leavesVoid_resolveS hs (leavesVoid_resolveL hs (leavesVoid_advance_writeL hs _)))
  | loadII32 o a b => exact .inl ⟨o, a, b, rfl⟩
  | addI32 | addU32 | subI32 | mulI32 | divI32 => exact .inr (leavesVoid_binopOperands hs (by decide) _ _ _ _)
  | cmpI32 | cmpU32 => exact .inr (leavesVoid_compareSlots hs (by decide) _ _ _)
  | jmp => exact .inr (leavesVoid_takeJump hs _)
  | jz =>
    rw [exec, execJz]
    split
    · exact .inr (leavesVoid_takeJump hs _)
    · exact .inr (leavesVoid_advance hs)
  | jnz =>
    rw [exec, execJnz]
    split
    · exact .inr (leavesVoid_advance hs)
    · exact .inr (leavesVoid_takeJump hs _)
  | printU32 | printF32 | printI32 => exact .inr (leavesVoid_printSlot hs (by decide) _ _)

end

/-- Settles O14: the destination's check and the write of the literal; every other instruction leaves VOID as it is. -/
theorem loadImmediateSetsI32 : Obligations.LoadImmediateSetsI32 := by
  rintro s opd imm1 imm2 ⟨-, -, hS, -⟩
  rw [← hS]
  refine ⟨fun hdst => exec_loadII32_of_lt hdst, fun hdst => resolveS_of_ge hdst _, ?onlySource,
    fun m e => (EncodingShape.loadII32 opd imm1 imm2 m e).2⟩
  rintro hvoid i t hexec ⟨v, hmem, hne⟩
  rcases exec_isLoadII32_or_leavesVoid ((allVoid_iff s).mpr hvoid) i with h | h
  · exact h
  · exact absurd ((allVoid_iff t).mp (h t hexec) v hmem) hne

end Sys2Proof.Machine
end

section
/-! PROOFS. Arithmetic (42_arithmetic.md): the result word of each of the five instructions, the one operand form they
share (R87), and what each answers in every state (R88 to R92). -/

namespace Sys2Proof.Machine

open Sys2Proof.Laws

/-! ## The result words (R88 to R92), computed exactly and narrowed (R93) -/

/-- Narrowing the exact sum is the sum of the words, so it has both readings (R88). -/
theorem addI32_eq_add (x y : Word) : addI32 x y = x + y := by
  rw [addI32, asU32, asI32, asI32, BitVec.ofInt_add, BitVec.ofInt_toInt, BitVec.ofInt_toInt]

/-- As `addI32_eq_add`, of the low half of the product (R91). -/
theorem mulI32_eq_mul (x y : Word) : mulI32 x y = x * y := by
  rw [mulI32, asU32, asI32, asI32, BitVec.ofInt_mul, BitVec.ofInt_toInt, BitVec.ofInt_toInt]

theorem divI32_of_overflow (ovf : Word) {x y : Word} (h : x.toInt = -2 ^ 31 ∧ y.toInt = -1) : divI32 ovf x y = ovf :=
  if_pos h

/-- INT32_MIN / -1 is the one quotient that the word cannot hold; any other is not changed by narrowing (R92). -/
theorem toInt_divI32 (ovf : Word) {x y : Word} (h : ¬ (x.toInt = -2 ^ 31 ∧ y.toInt = -1)) :
    (divI32 ovf x y).toInt = x.toInt.tdiv y.toInt := by
  have hfits : x ≠ BitVec.intMin 32 ∨ y ≠ -1#32 := by
    by_contra hboth
    obtain ⟨rfl, rfl⟩ : x = BitVec.intMin 32 ∧ y = -1#32 := by simpa [not_or] using hboth
    exact h (by decide)
  calc (divI32 ovf x y).toInt
      _ = (x.toInt.tdiv y.toInt).bmod (2 ^ 32) := by rw [divI32, if_neg h, BitVec.toInt_ofInt]
      _ = (x.sdiv y).toInt := (BitVec.toInt_sdiv x y).symm
      _ = x.toInt.tdiv y.toInt := BitVec.toInt_sdiv_of_ne_or_ne x y hfits

/-- The remainder of the division rounded toward zero is smaller than the divisor and has the dividend's sign (R92). -/
theorem tmod_lt_and_sign (a : Int) {b : Int} (hb : b ≠ 0) :
    (a.tmod b).natAbs < b.natAbs ∧ (0 ≤ a → 0 ≤ a.tmod b) ∧ (a ≤ 0 → a.tmod b ≤ 0) := by
  refine ⟨?smaller, Int.tmod_nonneg b, fun ha => ?nonpos⟩
  case smaller =>
    rw [Int.natAbs_tmod]
    exact Nat.mod_lt _ (Int.natAbs_pos.mpr hb)
  case nonpos =>
    have hneg : 0 ≤ (-a).tmod b := Int.tmod_nonneg b (by omega)
    rw [Int.neg_tmod] at hneg
    omega

/-! ## The operand form the five share (R87, R75, R81) -/

section
variable {t : Tag} {opd : Byte} {imm1 imm2 : Word} {s : State} {i : Instr} {k : Word → Word → Result}

/-- Sources of the required tag and a destination in the bank hand on both payloads. -/
theorem binopOperands_of_sources {v w : TypedValue} (hv : s.stackVars[imm1.toNat % 256]? = some v)
    (hw : s.stackVars[imm2.toNat % 256]? = some w) (hd : opd.toNat < s.stackVars.length) (hvt : v.tag = t)
    (hwt : w.tag = t) (k : Word → Word → Result) : binopOperands t opd imm1 imm2 s k = k v.pay w.pay := by
  rw [← maskedIdx_eq] at hv hw
  rw [binopOperands, resolveS_some hv, resolveS_some hw, resolveS_of_lt hd, requireTags_eq hvt hwt]

/-- Before a continuation that always raises the index error, an index check changes nothing: the order of two index
checks cannot be seen. -/
theorem resolveS_eq_raise_of_forall {j : Nat} {c : TypedValue → Result}
    (h : ∀ v, c v = raise .errInvalidStackVarIdx s) : resolveS j s c = raise .errInvalidStackVarIdx s := by
  rcases resolveS_cases j s c with ⟨v, -, heq⟩ | ⟨-, heq⟩
  · exact heq.trans (h v)
  · exact heq

/-- Any index outside the bank is the index error, whatever the tags (R81 phase 3). -/
theorem raisesOnBadIndex_of_binopOperands (hS : s.stackVars.length = s.params.stackVarCount)
    (hexec : exec i s = binopOperands t opd imm1 imm2 s k) :
    RaisesOnBadIndex i s [imm1.toNat % 256, imm2.toNat % 256, opd.toNat] := by
  intro hbad
  simp only [List.mem_cons, List.not_mem_nil, or_false, exists_eq_or_imp, exists_eq_left, ← hS, ← maskedIdx_eq] at hbad
  rw [Raises, ← raise_eq, hexec, binopOperands]
  rcases hbad with h1 | h2 | hd
  · exact resolveS_of_ge h1 _
  · exact resolveS_eq_raise_of_forall fun _ => resolveS_of_ge h2 _
  · exact resolveS_eq_raise_of_forall fun _ => resolveS_eq_raise_of_forall fun _ => resolveS_of_ge hd _

/-- With every index in the bank, a source of another tag is the type error (R75 phase 2, R81 phase 4). -/
theorem raisesOnBadTag_of_binopOperands (hS : s.stackVars.length = s.params.stackVarCount)
    (hexec : exec i s = binopOperands t opd imm1 imm2 s k) :
    RaisesOnBadTag i s [imm1.toNat % 256, imm2.toNat % 256, opd.toNat] [imm1.toNat % 256, imm2.toNat % 256] t := by
  intro hin hbad
  simp only [List.forall_mem_cons, List.not_mem_nil, false_implies, implies_true, and_true, ← hS] at hin
  obtain ⟨h1, h2, hd⟩ := hin
  have hv := List.getElem?_eq_getElem h1
  have hw := List.getElem?_eq_getElem h2
  have hne : s.stackVars[imm1.toNat % 256].tag ≠ t ∨ s.stackVars[imm2.toNat % 256].tag ≠ t := by
    simpa [hv, hw] using hbad
  exact hexec.trans (binopOperands_tag_ne hv hw hd hne k)

end

/-! ## The five instructions (R88 to R92) -/

/-- Settles O16: the operand form with the sum of the words, which is narrowed from either reading alike. -/
theorem addI32AddsSigned : Obligations.AddI32AddsSigned := by
  rintro s opd imm1 imm2 ⟨-, -, hS, -⟩
  refine ⟨fun x y hx hy hd => ⟨addI32 x y, ?signed, ?unsigned, ?completes⟩, raisesOnBadIndex_of_binopOperands hS rfl,
    raisesOnBadTag_of_binopOperands hS rfl, fun m e => (EncodingShape.addI32 opd imm1 imm2 m e).2⟩
  case signed => rw [addI32_eq_add, BitVec.toInt_add]
  case unsigned => rw [addI32_eq_add, BitVec.toNat_add]
  case completes => exact binopOperands_of_sources hx hy (hS ▸ hd) rfl rfl _

/-- Settles O17: as O16 at the tag U32, with the unsigned sum alone. -/
theorem addU32AddsModulo : Obligations.AddU32AddsModulo := by
  rintro s opd imm1 imm2 ⟨-, -, hS, -⟩
  exact ⟨fun x y hx hy hd => ⟨addU32 x y, BitVec.toNat_ofNat _ _, binopOperands_of_sources hx hy (hS ▸ hd) rfl rfl _⟩,
    raisesOnBadIndex_of_binopOperands hS rfl, raisesOnBadTag_of_binopOperands hS rfl,
    fun m e => (EncodingShape.addU32 opd imm1 imm2 m e).2⟩

/-- Settles O18: as O16, with the difference narrowed. -/
theorem subI32Subtracts : Obligations.SubI32Subtracts := by
  rintro s opd imm1 imm2 ⟨-, -, hS, -⟩
  exact ⟨fun x y hx hy hd => ⟨subI32 x y, BitVec.toInt_ofInt _, binopOperands_of_sources hx hy (hS ▸ hd) rfl rfl _⟩,
    raisesOnBadIndex_of_binopOperands hS rfl, raisesOnBadTag_of_binopOperands hS rfl,
    fun m e => (EncodingShape.subI32 opd imm1 imm2 m e).2⟩

/-- Settles O19: as O16, with the product of the words. -/
theorem mulI32MultipliesLowHalf : Obligations.MulI32MultipliesLowHalf := by
  rintro s opd imm1 imm2 ⟨-, -, hS, -⟩
  refine ⟨fun x y hx hy hd => ⟨mulI32 x y, ?signed, ?unsigned, ?completes⟩, raisesOnBadIndex_of_binopOperands hS rfl,
    raisesOnBadTag_of_binopOperands hS rfl, fun m e => (EncodingShape.mulI32 opd imm1 imm2 m e).2⟩
  case signed => rw [mulI32_eq_mul, BitVec.toInt_mul]
  case unsigned => rw [mulI32_eq_mul, BitVec.toNat_mul]
  case completes => exact binopOperands_of_sources hx hy (hS ▸ hd) rfl rfl _

/-- Settles O20: past the operand form the divisor is checked; the quotient fits the word but for INT32_MIN / -1, and
its remainder is `Int.tmod`. -/
theorem divI32TruncatesAndChecksZero : Obligations.DivI32TruncatesAndChecksZero := by
  rintro s opd imm1 imm2 ⟨-, -, hS, -⟩
  refine ⟨fun x y hx hy hd => ?result, raisesOnBadIndex_of_binopOperands hS rfl,
    raisesOnBadTag_of_binopOperands hS rfl, fun m e => (EncodingShape.divI32 opd imm1 imm2 m e).2⟩
  have hexec : exec (.divI32 opd imm1 imm2) s = _ := binopOperands_of_sources hx hy (hS ▸ hd) rfl rfl _
  refine ⟨fun hzero => hexec.trans (if_pos hzero), fun hy0 => ⟨divI32 s.params.divOvfResult x y,
    divI32_of_overflow _, fun hfits => ⟨x.toInt.tmod y.toInt, ?division, tmod_lt_and_sign _ hy0⟩,
    hexec.trans (if_neg hy0)⟩⟩
  case division => rw [toInt_divI32 _ hfits, Int.tdiv_mul_add_tmod]

end Sys2Proof.Machine
end

section
/-! PROOFS. Comparison (43_comparison.md): the flag register of a valid comparison bit by bit (R95), the operand form the
two instructions share, and what each answers in every state (R96 to R98). -/

namespace Sys2Proof.Machine

open Sys2Proof.Laws

/-! ## The flags of a comparison, bit by bit (R95) -/

section
variable (lt : Word → Word → Bool) (a b : Word)

theorem cmpFlags_zero : (cmpFlags lt a b).getLsbD 0 = (a == b) := by
  rw [cmpFlags, BitVec.getLsbD_append]
  simp

theorem cmpFlags_less : (cmpFlags lt a b).getLsbD 1 = lt a b := by
  rw [cmpFlags, BitVec.getLsbD_append, BitVec.getLsbD_append]
  simp

theorem cmpFlags_greater : (cmpFlags lt a b).getLsbD 2 = lt b a := by
  rw [cmpFlags, BitVec.getLsbD_append, BitVec.getLsbD_append, BitVec.getLsbD_append]
  simp

theorem cmpFlags_high {k : Nat} (hk : 3 ≤ k) : (cmpFlags lt a b).getLsbD k = false := by
  rw [cmpFlags, BitVec.getLsbD_append, if_neg (by omega), BitVec.getLsbD_append, if_neg (by omega),
    BitVec.getLsbD_append, if_neg (by omega), BitVec.getLsbD_zero]

/-- The register keeps all of it: only the bits hardwired to 0 (R25) are masked out. -/
theorem cmpFlags_and_flagsMask : cmpFlags lt a b &&& flagsMask = cmpFlags lt a b := by
  have hlt : (cmpFlags lt a b).toNat < 2 ^ 3 := Nat.lt_pow_two_of_testBit _ fun _ hk => cmpFlags_high lt a b hk
  refine BitVec.eq_of_toNat_eq ?_
  rw [BitVec.toNat_and]
  exact Nat.and_two_pow_sub_one_of_lt_two_pow hlt

end

/-! ## The two orders (R97, R98) -/

theorem ltI32_iff (a b : Word) : ltI32 a b = true ↔ a.toInt < b.toInt := decide_eq_true_iff

theorem ltU32_iff (a b : Word) : ltU32 a b = true ↔ a.toNat < b.toNat := decide_eq_true_iff

/-! ## The operand form the two share (R95, R75, R81) -/

section
variable {t : Tag} {imm1 imm2 : Word} {s : State} {i : Instr} {k : Word → Word → Result}

/-- Sources of the required tag hand on both payloads. -/
theorem cmpOperands_of_sources {v w : TypedValue} (hv : s.stackVars[imm1.toNat % 256]? = some v)
    (hw : s.stackVars[imm2.toNat % 256]? = some w) (hvt : v.tag = t) (hwt : w.tag = t) (k : Word → Word → Result) :
    cmpOperands t imm1 imm2 s k = k v.pay w.pay := by
  rw [← maskedIdx_eq] at hv hw
  rw [cmpOperands, resolveS_some hv, resolveS_some hw, requireTags_eq hvt hwt]

/-- Either index outside the bank is the index error, whatever the tags (R81 phase 3). -/
theorem raisesOnBadIndex_of_cmpOperands (hS : s.stackVars.length = s.params.stackVarCount)
    (hexec : exec i s = cmpOperands t imm1 imm2 s k) :
    RaisesOnBadIndex i s [imm1.toNat % 256, imm2.toNat % 256] := by
  intro hbad
  simp only [List.mem_cons, List.not_mem_nil, or_false, exists_eq_or_imp, exists_eq_left, ← hS, ← maskedIdx_eq] at hbad
  rw [Raises, ← raise_eq, hexec, cmpOperands]
  rcases hbad with h1 | h2
  · exact resolveS_of_ge h1 _
  · exact resolveS_eq_raise_of_forall fun _ => resolveS_of_ge h2 _

/-- With both indices in the bank, a source of another tag is the type error (R75 phase 2, R81 phase 4). -/
theorem raisesOnBadTag_of_cmpOperands (hS : s.stackVars.length = s.params.stackVarCount)
    (hexec : exec i s = cmpOperands t imm1 imm2 s k) :
    RaisesOnBadTag i s [imm1.toNat % 256, imm2.toNat % 256] [imm1.toNat % 256, imm2.toNat % 256] t := by
  intro hin hbad
  simp only [List.forall_mem_cons, List.not_mem_nil, false_implies, implies_true, and_true, ← hS] at hin
  obtain ⟨h1, h2⟩ := hin
  have hv := List.getElem?_eq_getElem h1
  have hw := List.getElem?_eq_getElem h2
  have hne : s.stackVars[imm1.toNat % 256].tag ≠ t ∨ s.stackVars[imm2.toNat % 256].tag ≠ t := by
    simpa [hv, hw] using hbad
  exact hexec.trans (cmpOperands_tag_ne hv hw hne k)

/-- A comparison of two sources of the required tag rewrites the flags and moves to the default successor (R95, R96). -/
theorem compareSlots_of_sources (lt : Word → Word → Bool) {v w : TypedValue}
    (hv : s.stackVars[imm1.toNat % 256]? = some v) (hw : s.stackVars[imm2.toNat % 256]? = some w) (hvt : v.tag = t)
    (hwt : w.tag = t) :
    compareSlots t lt imm1 imm2 s =
      .next { s with flags := cmpFlags lt v.pay w.pay, pc := s.pc + 10, stepStatus := .ok } := by
  rw [compareSlots, cmpOperands_of_sources hv hw hvt hwt, writeFlags, cmpFlags_and_flagsMask, advance_eq]

/-- And OK is answered for two such sources only. -/
theorem sources_of_compareSlots_ok {lt : Word → Word → Bool} {u : State} (h : compareSlots t lt imm1 imm2 s = .next u)
    (hok : u.stepStatus = .ok) :
    ∃ v w, s.stackVars[imm1.toNat % 256]? = some v ∧ s.stackVars[imm2.toNat % 256]? = some w ∧ v.tag = t ∧
      w.tag = t := by
  rw [compareSlots] at h
  rcases cmpOperands_cases t imm1 imm2 s fun a b => advance (writeFlags (cmpFlags lt a b) s) with
    ⟨v, w, hv, hw, hvt, hwt, -⟩ | heq | heq
  · rw [maskedIdx_eq] at hv hw
    exact ⟨v, w, hv, hw, hvt, hwt⟩
  · cases heq.symm.trans h
    cases hok
  · cases heq.symm.trans h
    cases hok

end

/-! ## The two instructions (R96 to R98) -/

/-- Settles O23: the operand form at I32, with the flags of the signed order. -/
theorem cmpI32ComparesSigned : Obligations.CmpI32ComparesSigned := by
  rintro s opd imm1 imm2 ⟨-, -, hS, -⟩
  refine ⟨fun x y hx hy => ⟨cmpFlags ltI32 x y, ?zero, ?less, ?greater, fun _ => cmpFlags_high _ _ _, ?completes⟩,
    raisesOnBadIndex_of_cmpOperands hS rfl, raisesOnBadTag_of_cmpOperands hS rfl,
    fun m e => (EncodingShape.cmpI32 opd imm1 imm2 m e).2⟩
  case zero => rw [cmpFlags_zero, beq_iff_eq, BitVec.toInt_inj]
  case less => rw [cmpFlags_less, ltI32_iff]
  case greater => rw [cmpFlags_greater, ltI32_iff]
  case completes => exact (compareSlots_of_sources ltI32 hx hy rfl rfl :)

/-- Settles O24: the operand form at U32, with the flags of the unsigned order. -/
theorem cmpU32ComparesUnsigned : Obligations.CmpU32ComparesUnsigned := by
  rintro s opd imm1 imm2 ⟨-, -, hS, -⟩
  refine ⟨fun x y hx hy => ⟨cmpFlags ltU32 x y, ?zero, ?less, ?greater, fun _ => cmpFlags_high _ _ _, ?completes⟩,
    raisesOnBadIndex_of_cmpOperands hS rfl, raisesOnBadTag_of_cmpOperands hS rfl,
    fun m e => (EncodingShape.cmpU32 opd imm1 imm2 m e).2⟩
  case zero => rw [cmpFlags_zero, beq_iff_eq, BitVec.toNat_inj]
  case less => rw [cmpFlags_less, ltU32_iff]
  case greater => rw [cmpFlags_greater, ltU32_iff]
  case completes => exact (compareSlots_of_sources ltU32 hx hy rfl rfl :)

/-- Both are `cmp` of R95, at an order whose flags are exactly one of the three; `opd` takes no part. -/
theorem exec_comparison_eq : ∀ mk ∈ [Instr.cmpI32, Instr.cmpU32], ∃ t lt,
    (∀ a b, cmpFlags lt a b = 0b001 ∨ cmpFlags lt a b = 0b010 ∨ cmpFlags lt a b = 0b100) ∧
    ∀ opd imm1 imm2 s, exec (mk opd imm1 imm2) s = compareSlots t lt imm1 imm2 s := by
  simp only [List.forall_mem_cons, List.not_mem_nil, false_implies, implies_true, and_true]
  refine ⟨⟨.i32, ltI32, fun a b => ?signed, fun _ _ _ _ => rfl⟩,
    ⟨.u32, ltU32, fun a b => ?unsigned, fun _ _ _ _ => rfl⟩⟩
  case signed => exact cmpFlags_and_flagsMask ltI32 a b ▸ cmpFlags_ltI32 a b
  case unsigned => exact cmpFlags_and_flagsMask ltU32 a b ▸ cmpFlags_ltU32 a b

/-- Settles O25: the next state depends on the two sources and not on the flags before; the sources stand unchanged in
it, so the same comparison finds them again. -/
theorem comparisonRewritesAllFlags : Obligations.ComparisonRewritesAllFlags := by
  intro s t opd imm1 imm2 mk hmk hexec hok
  obtain ⟨T, lt, honeHot, heq⟩ := exec_comparison_eq mk hmk
  simp only [heq] at hexec ⊢
  obtain ⟨v, w, hv, hw, hvt, hwt⟩ := sources_of_compareSlots_ok hexec hok
  rw [compareSlots_of_sources lt hv hw hvt hwt] at hexec
  obtain rfl := Host.Outcome.next.inj hexec
  exact ⟨honeHot _ _, fun f => compareSlots_of_sources lt hv hw hvt hwt,
    ⟨_, compareSlots_of_sources lt hv hw hvt hwt, rfl, rfl⟩, rfl⟩

end Sys2Proof.Machine
end

section
/-! PROOFS. Control flow (44_control_flow.md): what a taken jump answers on either side of `program_len` (R99), and when
each of the three jumps is taken (R100 to R102). -/

namespace Sys2Proof.Machine

open Sys2Proof.Laws

section
variable {s : State} {opd : Byte} {imm1 imm2 : Word}

/-! ## A taken jump on either side of `program_len` (R99) -/

theorem takeJump_of_lt (h : imm1.toNat < s.programLen.toNat) :
    takeJump imm1 s = .next { s with pc := imm1, stepStatus := .ok } := if_pos h

theorem takeJump_of_ge (h : s.programLen.toNat ≤ imm1.toNat) :
    takeJump imm1 s = .next { s with stepStatus := .errInvalidPc } := if_neg h.not_gt

/-! ## When the conditional jumps are taken (R101, R102): ZERO is bit 0 of the flags -/

theorem exec_jz_of_zero (hz : s.flags.getLsbD 0 = true) : exec (.jz opd imm1 imm2) s = takeJump imm1 s :=
  if_pos ((zeroFlag_eq s).trans hz)

theorem exec_jz_of_not_zero (hz : s.flags.getLsbD 0 = false) : exec (.jz opd imm1 imm2) s = advance s :=
  if_neg (Bool.eq_false_iff.mp ((zeroFlag_eq s).trans hz))

theorem exec_jnz_of_zero (hz : s.flags.getLsbD 0 = true) : exec (.jnz opd imm1 imm2) s = advance s :=
  if_pos ((zeroFlag_eq s).trans hz)

theorem exec_jnz_of_not_zero (hz : s.flags.getLsbD 0 = false) : exec (.jnz opd imm1 imm2) s = takeJump imm1 s :=
  if_neg (Bool.eq_false_iff.mp ((zeroFlag_eq s).trans hz))

end

/-! ## The three instructions (R100 to R102) -/

/-- Settles O26: JMP is a taken jump in every state. -/
theorem jmpGoesToItsTarget : Obligations.JmpGoesToItsTarget := by
  intro s opd imm1 imm2
  have htaken : exec (.jmp opd imm1 imm2) s = takeJump imm1 s := rfl
  refine ⟨fun hlt => ?target, fun hge => ?badTarget, fun m e => ?encoding⟩
  case target => exact htaken.trans (takeJump_of_lt hlt)
  case badTarget => exact htaken.trans (takeJump_of_ge hge)
  case encoding => exact (EncodingShape.jmp opd imm1 imm2 m e).2

/-- Settles O27: with ZERO set JZ is a taken jump, and only there is the target checked; with ZERO clear it advances. -/
theorem jzJumpsOnZero : Obligations.JzJumpsOnZero := by
  intro s opd imm1 imm2
  refine ⟨fun hz hlt => ?target, fun hz hge => ?badTarget, fun hz => ?notTaken, fun m e => ?encoding⟩
  case target => exact (exec_jz_of_zero hz).trans (takeJump_of_lt hlt)
  case badTarget => exact (exec_jz_of_zero hz).trans (takeJump_of_ge hge)
  case notTaken => exact (exec_jz_of_not_zero hz).trans (advance_eq s)
  case encoding => exact (EncodingShape.jz opd imm1 imm2 m e).2

/-- Settles O28: as O27, with ZERO clear for the taken jump and ZERO set for the advance. -/
theorem jnzJumpsOnNotZero : Obligations.JnzJumpsOnNotZero := by
  intro s opd imm1 imm2
  refine ⟨fun hz hlt => ?target, fun hz hge => ?badTarget, fun hz => ?notTaken, fun m e => ?encoding⟩
  case target => exact (exec_jnz_of_not_zero hz).trans (takeJump_of_lt hlt)
  case badTarget => exact (exec_jnz_of_not_zero hz).trans (takeJump_of_ge hge)
  case notTaken => exact (exec_jnz_of_zero hz).trans (advance_eq s)
  case encoding => exact (EncodingShape.jnz opd imm1 imm2 m e).2

end Sys2Proof.Machine
end

section
/-! PROOFS. Output (45_output.md): the operand form the three instructions share and the event each emits (R104, R106 to
R108), and the text of an event, digit by digit (R105). -/

namespace Sys2Proof.Machine

open Sys2Proof.Laws

/-! ## The operand form the three share (R106, R75, R81) -/

section
variable {t : Tag} {imm1 : Word} {s : State} {i : Instr}

/-- A source of the required tag goes out as one event, and `pc` takes the default successor. -/
theorem printSlot_of_source (kind : EventKind) {v : TypedValue} (hv : s.stackVars[imm1.toNat % 256]? = some v)
    (hvt : v.tag = t) :
    printSlot t kind imm1 s =
      .next { s with output := s.output ++ [⟨kind, v.pay⟩], pc := s.pc + 10, stepStatus := .ok } := by
  rw [← maskedIdx_eq] at hv
  rw [printSlot, printOperand, resolveS_some hv, requireTag_eq hvt, advance_eq, emit]

/-- An index outside the bank is the index error (R81 phase 3). -/
theorem raisesOnBadIndex_of_printSlot (hS : s.stackVars.length = s.params.stackVarCount) {kind : EventKind}
    (hexec : exec i s = printSlot t kind imm1 s) : RaisesOnBadIndex i s [imm1.toNat % 256] := by
  intro hbad
  simp only [List.mem_singleton, exists_eq_left, ← hS, ← maskedIdx_eq] at hbad
  exact hexec.trans (resolveS_of_ge hbad _)

/-- A source of another tag is the type error (R75 phase 2, R81 phase 4). -/
theorem raisesOnBadTag_of_printSlot {kind : EventKind} (hexec : exec i s = printSlot t kind imm1 s) :
    RaisesOnBadTag i s [imm1.toNat % 256] [imm1.toNat % 256] t := by
  rintro - ⟨k, hk, v, hv, hne⟩
  rw [List.mem_singleton.mp hk] at hv
  exact hexec.trans (printOperand_tag_ne hv hne _)

end

/-! ## The three instructions (R106 to R108) -/

/-- Settles O29: the shared form at U32. -/
theorem printU32EmitsItsEvent : Obligations.PrintU32EmitsItsEvent := by
  rintro s opd imm1 imm2 ⟨-, -, hS, -⟩
  exact ⟨fun w hw => printSlot_of_source .u32 hw rfl, raisesOnBadIndex_of_printSlot hS rfl,
    raisesOnBadTag_of_printSlot rfl, by decide, fun m e => (EncodingShape.printU32 opd imm1 imm2 m e).2⟩

/-- Settles O30: the shared form at FLOAT; the example's word is a whole number of millionths, so no tie decides. -/
theorem printF32EmitsItsEvent : Obligations.PrintF32EmitsItsEvent := by
  rintro s opd imm1 imm2 ⟨-, -, hS, -⟩
  exact ⟨fun w hw => printSlot_of_source .f32 hw rfl, raisesOnBadIndex_of_printSlot hS rfl,
    raisesOnBadTag_of_printSlot rfl, by decide, fun m e => (EncodingShape.printF32 opd imm1 imm2 m e).2⟩

/-- Settles O31: the shared form at I32. -/
theorem printI32EmitsItsEvent : Obligations.PrintI32EmitsItsEvent := by
  rintro s opd imm1 imm2 ⟨-, -, hS, -⟩
  exact ⟨fun w hw => printSlot_of_source .i32 hw rfl, raisesOnBadIndex_of_printSlot hS rfl,
    raisesOnBadTag_of_printSlot rfl, by decide, by decide, fun m e => (EncodingShape.printI32 opd imm1 imm2 m e).2⟩

/-! ## Plain decimals (R105) -/

theorem plainDecimal_digitChar (d : Nat) : plainDecimal [digitChar d] := by
  refine ⟨List.cons_ne_nil _ _, fun c hc => ?digits, fun h => ?head⟩
  case digits => exact List.mem_singleton.mp hc ▸ digitChar_isDigit d
  case head => rw [Option.some_inj.mp h]

theorem decimalValue_digitChar (d : Nat) : decimalValue [digitChar d] = d % 10 := by
  rw [← List.nil_append [digitChar d], decimalValue_append, digitChar_value]
  exact Nat.zero_add _

/-- A digit after a plain decimal of a number other than 0 brings no leading zero. -/
theorem plainDecimal_append_digitChar {ds : List Char} (hds : plainDecimal ds) (hpos : decimalValue ds ≠ 0) (d : Nat) :
    plainDecimal (ds ++ [digitChar d]) := by
  obtain ⟨hne, hdig, hzero⟩ := hds
  refine ⟨List.append_ne_nil_of_left_ne_nil hne _, fun c hc => ?digits, fun h => ?head⟩
  case digits =>
    rcases List.mem_append.mp hc with hc | hc
    · exact hdig c hc
    · exact List.mem_singleton.mp hc ▸ digitChar_isDigit d
  case head =>
    rw [List.head?_append_of_ne_nil _ hne] at h
    rw [hzero h] at hpos
    exact absurd rfl hpos

/-- With enough fuel the digits are the plain decimal of the number. -/
theorem digitsFuel_spec (fuel n : Nat) (h : n ≤ fuel) :
    plainDecimal (digitsFuel fuel n) ∧ decimalValue (digitsFuel fuel n) = n := by
  induction fuel generalizing n with
  | zero =>
    rw [Nat.le_zero.mp h]
    exact ⟨plainDecimal_digitChar 0, decimalValue_digitChar 0⟩
  | succ fuel ih =>
    rw [digitsFuel]
    split
    · next hlt => exact ⟨plainDecimal_digitChar n, (decimalValue_digitChar n).trans (Nat.mod_eq_of_lt hlt)⟩
    · next hge =>
      obtain ⟨hplain, hval⟩ := ih (n / 10) (by omega)
      refine ⟨plainDecimal_append_digitChar hplain (by omega) n, ?_⟩
      rw [decimalValue_append, hval, digitChar_value, Nat.div_add_mod]

theorem plainDecimal_natText (n : Nat) : plainDecimal (natText n) := (digitsFuel_spec n n le_rfl).1

theorem decimalValue_natText (n : Nat) : decimalValue (natText n) = n := (digitsFuel_spec n n le_rfl).2

/-! ## The character stream (R104, R105) -/

/-- The text of an event and PRINT_SUFFIX follow what the events before it have made. -/
theorem outputText_append {s : State} {e : OutEvent} {text : List Char}
    (h : eventText s.params e = text ++ s.params.printSuffix) :
    outputText { s with output := s.output ++ [e] } = outputText s ++ text ++ s.params.printSuffix := by
  simp [outputText, h]

/-! ## The integer texts (R105) -/

theorem textI32_of_nonneg {w : Word} (h : 0 ≤ w.toInt) : textI32 w = natText w.toInt.natAbs := if_neg h.not_gt

theorem textI32_of_neg {w : Word} (h : w.toInt < 0) : textI32 w = '-' :: natText w.toInt.natAbs := if_pos h

/-- Settles O32: the text is the plain decimal of the unsigned value. -/
theorem unsignedTextIsTheDecimalValue : Obligations.UnsignedTextIsTheDecimalValue := fun _ =>
  ⟨plainDecimal_natText _, decimalValue_natText _, fun _ => rfl, fun _ => outputText_append rfl⟩

/-- Settles O33: the digits are those of the magnitude, in both signs. -/
theorem signedTextIsTheDecimalValue : Obligations.SignedTextIsTheDecimalValue := by
  refine fun w => ⟨natText w.toInt.natAbs, plainDecimal_natText _, fun h => ⟨textI32_of_nonneg h, ?nonneg⟩,
    fun h => ⟨textI32_of_neg h, ?neg⟩, fun _ => rfl, fun _ => outputText_append rfl⟩
  case nonneg => rw [decimalValue_natText, Int.natAbs_of_nonneg h]
  case neg => rw [decimalValue_natText, Int.ofNat_natAbs_of_nonpos h.le, Int.neg_neg]

/-! ## The text of a finite binary32 word (R105) -/

theorem f32Exponent_eq (w : Word) : f32Exponent w = w.toNat / 2 ^ 23 % 2 ^ 8 := by
  rw [f32Exponent, BitVec.extractLsb'_toNat, Nat.shiftRight_eq_div_pow]

theorem f32Fraction_eq (w : Word) : f32Fraction w = w.toNat % 2 ^ 23 := by
  rw [f32Fraction, BitVec.extractLsb'_toNat, Nat.shiftRight_zero]

/-- The units, as one case for the subnormal words and one for the normal ones. -/
theorem f32Units_eq (w : Word) : f32Units w =
    if f32Exponent w = 0 then f32Fraction w else (2 ^ 23 + f32Fraction w) * 2 ^ (f32Exponent w - 1) := by
  rw [f32Units, f32Mantissa, f32Power]
  split
  · next h => rw [h, Nat.zero_sub, pow_zero, Nat.mul_one]
  · rfl

theorem textF32_of_finite {w : Word} (h : f32Exponent w ≠ 255) :
    textF32 w = (if w.getLsbD 31 then ['-'] else []) ++ natText (f32Millionths w / 10 ^ 6) ++ ['.'] ++
      paddedText 6 (f32Millionths w % 10 ^ 6) := if_pos (bne_iff_ne.mpr h)

/-- An integer part and six fraction digits stand for as many millionths as they are made of. -/
theorem decimalValue_integer_fraction (n : Nat) :
    decimalValue (natText (n / 10 ^ 6)) * 10 ^ 6 + decimalValue (paddedText 6 (n % 10 ^ 6)) = n := by
  obtain ⟨-, -, hval⟩ := paddedText_spec 6 (n % 10 ^ 6)
  rw [decimalValue_natText, hval, Nat.mod_mod, Nat.div_add_mod']

/-- Settles O34: the digits stand for the rounded count of millionths, and the rounding errs by at most a half. -/
theorem floatTextIsNearest : Obligations.FloatTextIsNearest := by
  refine ⟨fun w expo frac units hexpo hfrac hfin hunits => ?_, fun _ _ => rfl, fun _ _ => outputText_append rfl⟩
  rw [← f32Exponent_eq] at hexpo
  rw [← f32Fraction_eq] at hfrac
  subst hexpo hfrac
  rw [← f32Units_eq] at hunits
  obtain ⟨hlen, hdig, -⟩ := paddedText_spec 6 (f32Millionths w % 10 ^ 6)
  refine ⟨natText (f32Millionths w / 10 ^ 6), paddedText 6 (f32Millionths w % 10 ^ 6), plainDecimal_natText _, hlen,
    hdig, textF32_of_finite hfin, ?_⟩
  rw [decimalValue_integer_fraction, hunits]
  exact roundNearest_spec _ _ _ (by positivity)

end Sys2Proof.Machine
end

section
/-! PROOFS. Miscellaneous (46_misc.md): what NOP and HALT answer in every state (R109, R110), and the status a RUN makes
of a step that did not return OK (R132). -/

namespace Sys2Proof.Machine

open Sys2Proof.Laws

/-! ## A RUN whose first step does not return OK (R132) -/

/-- RUN ends with the mapped status of that step, in the state it left. -/
theorem run_of_step_not_ok {s t : State} (hstep : step s = .next t) (hne : t.stepStatus ≠ .ok) (fuel : Nat) :
    run (fuel + 1) s = (.returned (mapHalt t.stepStatus), t) := by
  simp only [run, hstep, if_neg hne]

theorem mapHalt_errHalt : mapHalt .errHalt = .ok := if_pos rfl

/-! ## The two instructions (R109, R110) -/

section
variable (s : State) (opd : Byte) (imm1 imm2 : Word)

theorem exec_nop : exec (.nop opd imm1 imm2) s = advance s := rfl

theorem exec_halt : exec (.halt opd imm1 imm2) s = raise .errHalt s := rfl

end

/-- A step at a HALT of the loaded program. -/
theorem step_of_fetches_halt {s : State} {opd : Byte} {imm1 imm2 : Word} (hp : ProgramFits s)
    (hf : Fetches s (.halt opd imm1 imm2)) : step s = .next { s with stepStatus := .errHalt } := by
  rw [step_of_fetches hp hf, exec_halt, raise_eq]

/-- Settles O35: NOP is the default successor alone. -/
theorem nopOnlyAdvances : Obligations.NopOnlyAdvances := by
  intro s opd imm1 imm2
  refine ⟨?completes, fun m e => ?encoding⟩
  case completes => exact (exec_nop s opd imm1 imm2).trans (advance_eq s)
  case encoding => exact (EncodingShape.nop opd imm1 imm2 m e).2

/-- Settles O36: the status a HALT leaves is nothing that the fetch reads, so the next step finds the same HALT; RUN
maps its status. -/
theorem haltReturnsErrHalt : Obligations.HaltReturnsErrHalt := by
  intro s opd imm1 imm2
  refine ⟨?raises, fun hp hf => ⟨?first, ?again, fun fuel => ?run⟩, fun m e => ?encoding⟩
  case raises => exact (exec_halt s opd imm1 imm2).trans (raise_eq .errHalt s)
  case first => exact step_of_fetches_halt hp hf
  case again => exact step_of_fetches_halt (s := { s with stepStatus := .errHalt }) hp hf
  case run => rw [run_of_step_not_ok (step_of_fetches_halt hp hf) nofun, mapHalt_errHalt]
  case encoding => exact (EncodingShape.halt opd imm1 imm2 m e).2

end Sys2Proof.Machine
end

section
/-! PROOFS. Exceptions and the host interface (60_exceptions.md): the statuses each instruction can return (R114, R115),
that a failed step repeats (R122), how a RUN ends (R132), what INSPECT shows (R128), and how commands are served one
after another (R129). -/

namespace Sys2Proof.Machine

/-! ## A failed step repeats (R122) -/

/-- The status recorded is nothing that a step reads (R32). -/
theorem seenAlike_setStatus (s : State) (e : Status) : SeenAlike s { s with stepStatus := e } :=
  ⟨rfl, fun _ _ => rfl, rfl, rfl, rfl, rfl, rfl, rfl⟩

/-- Settles O43: the failed step has changed nothing that a step reads, so the next one answers the same status, and
again changes nothing else. -/
theorem failedStepRepeats : Obligations.FailedStepRepeats := by
  intro s t hstep hne
  have ht := failingStepChangesNothing s t hstep hne
  have hseen : SeenAlike s t := ht ▸ seenAlike_setStatus s _
  obtain ⟨t₂, -, hstep₂, hstatus, -⟩ := stepIgnoresWhatIsNotRead s t t hseen hstep
  have ht₂ := failingStepChangesNothing t t₂ hstep₂ (hstatus ▸ hne)
  rw [hstatus] at ht₂
  exact hstep₂.trans (congrArg _ ht₂)

/-! ## The statuses of each instruction (R115) -/

/-- A next state answered has one of the statuses `es`. -/
def StatusIn (es : List Status) (r : Result) : Prop := ∀ t, r = .next t → t.stepStatus ∈ es

section
variable {es : List Status} {s : State}

theorem statusIn_raise {e : Status} (he : e ∈ es) (s : State) : StatusIn es (raise e s) := by
  rintro t ⟨⟩
  exact he

theorem statusIn_commit (hok : .ok ∈ es) (target : Word) (u : State) : StatusIn es (commit target u) := by
  rintro t ⟨⟩
  exact hok

theorem statusIn_advance (hok : .ok ∈ es) (u : State) : StatusIn es (advance u) := statusIn_commit hok _ u

theorem statusIn_resolveS (he : .errInvalidStackVarIdx ∈ es) {i : Nat} {k : TypedValue → Result}
    (hk : ∀ v, StatusIn es (k v)) : StatusIn es (resolveS i s k) := by
  rcases resolveS_cases i s k with ⟨v, -, heq⟩ | ⟨-, heq⟩
  · exact heq ▸ hk v
  · exact heq ▸ statusIn_raise he s

theorem statusIn_resolveG (he : .errInvalidGlobalIdx ∈ es) {i : Nat} {k : TypedValue → Result}
    (hk : ∀ v, StatusIn es (k v)) : StatusIn es (resolveG i s k) := by
  rcases resolveG_cases i s k with ⟨v, -, heq⟩ | ⟨-, heq⟩
  · exact heq ▸ hk v
  · exact heq ▸ statusIn_raise he s

theorem statusIn_resolveL (he : .errInvalidLocalIdx ∈ es) {i : Nat} {k : TypedValue → Result}
    (hk : ∀ v, StatusIn es (k v)) : StatusIn es (resolveL i s k) := by
  rcases resolveL_cases i s k with ⟨v, -, heq⟩ | ⟨-, heq⟩
  · exact heq ▸ hk v
  · exact heq ▸ statusIn_raise he s

theorem statusIn_requireTag (he : .errTypeMismatch ∈ es) {t : Tag} {v : TypedValue} {k : Word → Result}
    (hk : ∀ x, StatusIn es (k x)) : StatusIn es (requireTag t v s k) := by
  by_cases ht : v.tag = t
  · exact requireTag_eq ht s k ▸ hk _
  · exact requireTag_ne ht s k ▸ statusIn_raise he s

/-- The operands of an arithmetic instruction have two errors of their own (R87). -/
theorem statusIn_binopOperands (hidx : .errInvalidStackVarIdx ∈ es) (htag : .errTypeMismatch ∈ es) {t : Tag}
    {opd : Byte} {imm1 imm2 : Word} {k : Word → Word → Result} (hk : ∀ x y, StatusIn es (k x y)) :
    StatusIn es (binopOperands t opd imm1 imm2 s k) :=
  statusIn_resolveS hidx fun _ => statusIn_resolveS hidx fun _ => statusIn_resolveS hidx fun _ =>
    statusIn_requireTag htag fun _ => statusIn_requireTag htag fun _ => hk _ _

end

theorem binop_statusIn (t : Tag) (f : Word → Word → Word) (opd : Byte) (imm1 imm2 : Word) (s : State) :
    StatusIn [.ok, .errInvalidStackVarIdx, .errTypeMismatch] (binop t f opd imm1 imm2 s) :=
  statusIn_binopOperands (by decide) (by decide) fun _ _ => statusIn_advance (by decide) _

/-- The one instruction with a check past its operands (R92). -/
theorem execDivI32_statusIn (opd : Byte) (imm1 imm2 : Word) (s : State) :
    StatusIn [.ok, .errInvalidStackVarIdx, .errTypeMismatch, .errDivByZero] (execDivI32 opd imm1 imm2 s) := by
  refine statusIn_binopOperands (by decide) (by decide) fun x y => ?_
  split
  · exact statusIn_raise (by decide) s
  · exact statusIn_advance (by decide) _

theorem compareSlots_statusIn (t : Tag) (lt : Word → Word → Bool) (imm1 imm2 : Word) (s : State) :
    StatusIn [.ok, .errInvalidStackVarIdx, .errTypeMismatch] (compareSlots t lt imm1 imm2 s) :=
  statusIn_resolveS (by decide) fun _ => statusIn_resolveS (by decide) fun _ => statusIn_requireTag (by decide) fun _ =>
    statusIn_requireTag (by decide) fun _ => statusIn_advance (by decide) _

theorem printSlot_statusIn (t : Tag) (kind : EventKind) (imm1 : Word) (s : State) :
    StatusIn [.ok, .errInvalidStackVarIdx, .errTypeMismatch] (printSlot t kind imm1 s) :=
  statusIn_resolveS (by decide) fun _ => statusIn_requireTag (by decide) fun _ => statusIn_advance (by decide) _

theorem takeJump_statusIn (imm1 : Word) (s : State) : StatusIn [.ok, .errInvalidPc] (takeJump imm1 s) := by
  rcases takeJump_cases imm1 s with ⟨-, heq⟩ | ⟨-, heq⟩
  · exact heq ▸ statusIn_commit (by decide) imm1 s
  · exact heq ▸ statusIn_raise (by decide) s

/-- R115's table. -/
def statusesOf : Opcode → List Status
  | .nop => [.ok]
  | .halt => [.errHalt]
  | .loadG | .storeG => [.ok, .errInvalidGlobalIdx, .errInvalidStackVarIdx]
  | .loadL | .storeL => [.ok, .errInvalidLocalIdx, .errInvalidStackVarIdx]
  | .loadII32 => [.ok, .errInvalidStackVarIdx]
  | .addI32 | .addU32 | .subI32 | .mulI32 => [.ok, .errInvalidStackVarIdx, .errTypeMismatch]
  | .divI32 => [.ok, .errInvalidStackVarIdx, .errTypeMismatch, .errDivByZero]
  | .cmpI32 | .cmpU32 => [.ok, .errInvalidStackVarIdx, .errTypeMismatch]
  | .jmp | .jz | .jnz => [.ok, .errInvalidPc]
  | .printU32 | .printF32 | .printI32 => [.ok, .errInvalidStackVarIdx, .errTypeMismatch]

/-- Every instruction answers a status of its row. -/
theorem exec_statusIn (i : Instr) (s : State) : StatusIn (statusesOf i.opcode) (exec i s) := by
  cases i with
  | nop => exact statusIn_advance (es := [.ok]) (by decide) s
  | halt => exact statusIn_raise (es := [.errHalt]) (by decide) s
  | loadG =>
    exact statusIn_resolveG (es := [.ok, .errInvalidGlobalIdx, .errInvalidStackVarIdx]) (by decide) fun _ =>
      statusIn_resolveS (by decide) fun _ => statusIn_advance (by decide) _
  | loadL =>
    exact statusIn_resolveL (es := [.ok, .errInvalidLocalIdx, .errInvalidStackVarIdx]) (by decide) fun _ =>
      statusIn_resolveS (by decide) fun _ => statusIn_advance (by decide) _
  | storeG =>
    exact statusIn_resolveS (es := [.ok, .errInvalidGlobalIdx, .errInvalidStackVarIdx]) (by decide) fun _ =>
      statusIn_resolveG (by decide) fun _ => statusIn_advance (by decide) _
  | storeL =>
    exact statusIn_resolveS (es := [.ok, .errInvalidLocalIdx, .errInvalidStackVarIdx]) (by decide) fun _ =>
      statusIn_resolveL (by decide) fun _ => statusIn_advance (by decide) _
  | loadII32 =>
    exact statusIn_resolveS (es := [.ok, .errInvalidStackVarIdx]) (by decide) fun _ => statusIn_advance (by decide) _
  | addI32 | addU32 | subI32 | mulI32 => exact binop_statusIn _ _ _ _ _ s
  | divI32 => exact execDivI32_statusIn _ _ _ s
  | cmpI32 | cmpU32 => exact compareSlots_statusIn _ _ _ _ s
  | jmp => exact takeJump_statusIn _ s
  | jz =>
    rw [exec, execJz]
    split
    · exact takeJump_statusIn _ s
    · exact statusIn_advance (es := [.ok, .errInvalidPc]) (by decide) s
  | jnz =>
    rw [exec, execJnz]
    split
    · exact statusIn_advance (es := [.ok, .errInvalidPc]) (by decide) s
    · exact takeJump_statusIn _ s
  | printU32 | printF32 | printI32 => exact printSlot_statusIn _ _ _ s

/-- Settles O45: row by row of R115's table; an unassigned opcode is the step's own error (R74). -/
theorem statusesOfEachInstruction : Obligations.StatusesOfEachInstruction := by
  intro s t o a b
  have hrow (i : Instr) : exec i s = .next t → t.stepStatus ∈ statusesOf i.opcode := exec_statusIn i s t
  simp only [List.forall_mem_cons, List.not_mem_nil, false_implies, implies_true, and_true]
  refine ⟨⟨hrow _, hrow _⟩, ⟨hrow _, hrow _⟩, hrow _,
    ⟨hrow _, hrow _, hrow _, hrow _, hrow _, hrow _, hrow _, hrow _, hrow _⟩, hrow _, ⟨hrow _, hrow _, hrow _⟩,
    fun h => List.mem_singleton.mp (hrow _ h), fun h => List.mem_singleton.mp (hrow _ h),
    fun hp hin hop hstep => ?unassigned⟩
  case unassigned =>
    obtain rfl := Host.Outcome.next.inj (hstep.symm.trans (stepReportsUnassignedOpcode s hp hin hop))
    rfl

/-! ## How a RUN ends (R132) -/

/-- The ends of a RUN of at most `fuel` steps, each with the steps that lead to it. -/
inductive RunEnds (fuel : Nat) (s : State) : RunEnd × State → Prop where
  | outOfFuel {t : State} (hok : okSteps fuel s t) : RunEnds fuel s (.outOfFuel, t)
  | returned {n : Nat} {u t : State} (hn : n < fuel) (hok : okSteps n s u) (hstep : step u = .next t)
      (hne : t.stepStatus ≠ .ok) : RunEnds fuel s (.returned (mapHalt t.stepStatus), t)
  | stopped {u : State} : RunEnds fuel s (.stopped, u)

/-- A RUN goes on behind a step that returns OK. -/
theorem run_of_step_ok {s t : State} (hstep : step s = .next t) (hok : t.stepStatus = .ok) (fuel : Nat) :
    run (fuel + 1) s = run fuel t := by
  simp only [run, hstep, hok, if_true]

/-- A step with OK before a RUN is the first of a longer one. -/
theorem runEnds_of_step_ok {s t : State} (hstep : step s = .next t) (hok : t.stepStatus = .ok) {fuel : Nat}
    {r : RunEnd × State} (h : RunEnds fuel t r) : RunEnds (fuel + 1) s r := by
  cases h with
  | outOfFuel hsteps => exact .outOfFuel ⟨t, hstep, hok, hsteps⟩
  | returned hn hsteps hlast hne => exact .returned (Nat.succ_lt_succ hn) ⟨t, hstep, hok, hsteps⟩ hlast hne
  | stopped => exact .stopped

theorem run_ends (fuel : Nat) (s : State) : RunEnds fuel s (run fuel s) := by
  induction fuel generalizing s with
  | zero => exact .outOfFuel rfl
  | succ fuel ih =>
    cases hstep : step s with
    | next t =>
      by_cases hok : t.stepStatus = .ok
      · exact run_of_step_ok hstep hok fuel ▸ runEnds_of_step_ok hstep hok (ih t)
      · exact run_of_step_not_ok hstep hok fuel ▸ .returned (Nat.succ_pos fuel) rfl hstep hok
    | fault _ =>
      rw [run, hstep]
      exact .stopped
    | refused _ =>
      rw [run, hstep]
      exact .stopped

/-- Steps with OK use up their part of the fuel. -/
theorem run_add_of_okSteps {n : Nat} {s u : State} (h : okSteps n s u) (m : Nat) : run (n + m) s = run m u := by
  induction n generalizing s with
  | zero => rw [Nat.zero_add, show u = s from h]
  | succ n ih =>
    obtain ⟨t, hstep, hok, hsteps⟩ := h
    rw [Nat.succ_add, run_of_step_ok hstep hok, ih hsteps]

theorem run_eq_outOfFuel_iff {fuel : Nat} {s t : State} : run fuel s = (.outOfFuel, t) ↔ okSteps fuel s t := by
  constructor
  · intro h
    cases h ▸ run_ends fuel s with
    | outOfFuel hok => exact hok
  · exact fun h => run_add_of_okSteps h 0

theorem run_eq_returned_iff {fuel : Nat} {s t : State} {st : Status} : run fuel s = (.returned st, t) ↔
    ∃ n u, n < fuel ∧ okSteps n s u ∧ step u = .next t ∧ t.stepStatus ≠ .ok ∧ st = mapHalt t.stepStatus := by
  constructor
  · intro h
    cases h ▸ run_ends fuel s with
    | returned hn hok hstep hne => exact ⟨_, _, hn, hok, hstep, hne, rfl⟩
  · rintro ⟨n, u, hn, hok, hstep, hne, rfl⟩
    obtain ⟨m, rfl⟩ := Nat.exists_eq_add_of_lt hn
    exact (run_add_of_okSteps hok (m + 1)).trans (run_of_step_not_ok hstep hne m)

theorem mapHalt_of_ne {st : Status} (h : st ≠ .errHalt) : mapHalt st = st := if_neg h

theorem mapHalt_ne_errHalt (st : Status) : mapHalt st ≠ .errHalt := by
  by_cases h : st = .errHalt
  · rw [h, mapHalt_errHalt]
    exact nofun
  · rwa [mapHalt_of_ne h]

/-- Of the statuses that end a RUN, HALT's alone is mapped to OK. -/
theorem mapHalt_eq_ok_iff {st : Status} (hne : st ≠ .ok) : mapHalt st = .ok ↔ st = .errHalt := by
  refine ⟨fun h => ?_, fun h => h ▸ mapHalt_errHalt⟩
  by_contra hhalt
  exact hne (mapHalt_of_ne hhalt ▸ h)

/-- Settles O56: the ends of a RUN by the steps that lead to them, and the status by `mapHalt`. -/
theorem runReturnsTheMappedStatus : Obligations.RunReturnsTheMappedStatus := by
  refine fun fuel s => ⟨fun st t => run_eq_returned_iff, fun t => run_eq_outOfFuel_iff, fun st t h => ?_⟩
  obtain ⟨_, _, -, -, -, hne, rfl⟩ := run_eq_returned_iff.mp h
  exact ⟨mapHalt_ne_errHalt _, mapHalt_eq_ok_iff hne⟩

/-! ## The replies of STEP and RUN (R130) -/

section
variable {s t : State} {st : Status} {fuel : Nat}

theorem serve_step_eq_status_iff : serve .step s = (.status st, t) ↔ step s = .next t ∧ t.stepStatus = st := by
  rw [serve]
  cases step s with
  | next u =>
    simp only [Prod.mk.injEq, Reply.status.injEq, Host.Outcome.next.injEq]
    constructor
    · rintro ⟨rfl, rfl⟩
      exact ⟨rfl, rfl⟩
    · rintro ⟨rfl, rfl⟩
      exact ⟨rfl, rfl⟩
  | fault _ => simp
  | refused _ => simp

theorem serve_run_eq_status_iff : serve (.run fuel) s = (.status st, t) ↔ run fuel s = (.returned st, t) := by
  rw [serve]
  cases run fuel s with
  | mk e u => cases e <;> simp [RunEnd.reply]

theorem serve_run_eq_running_iff : serve (.run fuel) s = (.running, t) ↔ run fuel s = (.outOfFuel, t) := by
  rw [serve]
  cases run fuel s with
  | mk e u => cases e <;> simp [RunEnd.reply]

end

/-! ## The five codes that no command returns (R114) -/

/-- The codes R114 lists. -/
abbrev neverReturned : List Status :=
  [.errStackOverflow, .errStackUnderflow, .errArrayBounds, .errInvalidBufferIdx, .errInvalidBufferPos]

/-- R115's table lists none of them. -/
theorem statusesOf_disjoint_neverReturned (op : Opcode) : ∀ st ∈ statusesOf op, st ∉ neverReturned := by
  cases op <;> decide

theorem step_status_notMem_neverReturned {s t : State} (h : step s = .next t) : t.stepStatus ∉ neverReturned := by
  rcases step_cases s with ⟨i, -, -, heq⟩ | heq | heq | ⟨-, heq⟩
  · exact statusesOf_disjoint_neverReturned i.opcode _ (exec_statusIn i s t (heq.symm.trans h))
  · cases heq.symm.trans h
    exact (by decide : Status.errInvalidInstruction ∉ neverReturned)
  · cases heq.symm.trans h
    exact (by decide : Status.errInvalidOpcode ∉ neverReturned)
  · cases heq.symm.trans h

/-- Mapping HALT's status to OK brings in none of them. -/
theorem mapHalt_notMem_neverReturned {st : Status} (h : st ∉ neverReturned) : mapHalt st ∉ neverReturned := by
  by_cases hhalt : st = .errHalt
  · rw [hhalt, mapHalt_errHalt]
    decide
  · rwa [mapHalt_of_ne hhalt]

theorem cmdLoad_status_notMem_neverReturned (bytes : List Byte) (s : State) : (cmdLoad bytes s).1 ∉ neverReturned := by
  unfold cmdLoad
  split
  · exact (by decide : Status.ok ∉ neverReturned)
  · exact (by decide : Status.errProgramTooLarge ∉ neverReturned)

/-- Settles O46: INIT and INSPECT return no status, LOAD two of its own, STEP one of R115's or the fetch's, and RUN that
of a step, mapped. -/
theorem fiveCodesAreNeverReturned : Obligations.FiveCodesAreNeverReturned := by
  intro c s t st h
  cases c with
  | init => cases h
  | load bytes =>
    cases h
    exact cmdLoad_status_notMem_neverReturned bytes s
  | step =>
    obtain ⟨hstep, rfl⟩ := serve_step_eq_status_iff.mp h
    exact step_status_notMem_neverReturned hstep
  | run fuel =>
    obtain ⟨_, _, -, -, hstep, -, rfl⟩ := run_eq_returned_iff.mp (serve_run_eq_status_iff.mp h)
    exact mapHalt_notMem_neverReturned (step_status_notMem_neverReturned hstep)
  | inspect => cases h

/-! ## What INSPECT shows (R128) -/

/-- Flags whose hardwired bits are 0 read as they are (R25, R36 d). -/
theorem readFlags_of_flagsLegal {s : State} (h : FlagsLegal s) : readFlags s = s.flags := by
  obtain ⟨hhigh, -⟩ := h
  have hlt : s.flags.toNat < 2 ^ 3 := Nat.lt_pow_two_of_testBit _ hhigh
  refine BitVec.eq_of_toNat_eq ?_
  rw [readFlags, BitVec.toNat_and]
  exact Nat.and_two_pow_sub_one_of_lt_two_pow hlt

@[simp] theorem Memory.length_bytes (m : Memory) (n : Nat) : (m.bytes n).length = n := by simp [Memory.bytes]

theorem Memory.getElem?_bytes (m : Memory) {n a : Nat} (h : a < n) : (m.bytes n)[a]? = some (m.read a) := by
  simp [Memory.bytes, h]

/-- Settles O55: the dump is the state's fields, the banks and the memories shown slot by slot and byte by byte. -/
theorem inspectShowsTheState : Obligations.InspectShowsTheState := by
  intro s hflags
  refine ⟨inspect s, rfl, rfl, rfl, readFlags_of_flagsLegal hflags, rfl, Memory.length_bytes _ _,
    fun a => Memory.getElem?_bytes _, fun _ => List.getElem?_map, fun _ => List.getElem?_map,
    fun _ => List.getElem?_map, List.length_map _, fun i b hb => ?buffer⟩
  case buffer =>
    refine ⟨Memory.bytes b.elements bufferBytes, ?_, Memory.length_bytes _ _, fun a => Memory.getElem?_bytes _⟩
    rw [inspect, List.getElem?_map, hb, Option.map_some]

/-! ## Commands one after another (R129) -/

theorem Reply.completed_iff (r : Reply) : r.completed = true ↔ r ≠ .running ∧ r ≠ .stopped := by
  rw [← Bool.not_eq_false, r.completed_eq_false, not_or]

section
variable {c : Command} {cs : List Command} {s t : State} {r : Reply} {rs : List Reply}

/-- The first reply is the first command's. -/
theorem serve_fst_of_serveAll_cons (h : serveAll (c :: cs) s = (r :: rs, t)) : (serve c s).1 = r := by
  rw [serveAll] at h
  split at h
  · exact (List.cons.inj (Prod.mk.inj h).1).1
  · exact (List.cons.inj (Prod.mk.inj h).1).1

/-- A first reply that says completion is followed by those of the other commands, served from where it led. -/
theorem serveAll_cons_eq_iff_of_completed (hr : r.completed = true) :
    serveAll (c :: cs) s = (r :: rs, t) ↔ ∃ u, serve c s = (r, u) ∧ serveAll cs u = (rs, t) := by
  constructor
  · intro h
    obtain rfl := serve_fst_of_serveAll_cons h
    rw [serveAll_cons_completed c cs s hr] at h
    cases h
    exact ⟨_, rfl, rfl⟩
  · rintro ⟨u, hserve, hrest⟩
    rw [serveAll_cons_completed c cs s (by rwa [hserve]), hserve, hrest]

/-- A first reply that does not is the only one. -/
theorem serveAll_cons_eq_iff_of_pending (hr : r.completed = false) :
    serveAll (c :: cs) s = ([r], t) ↔ serve c s = (r, t) := by
  constructor
  · intro h
    obtain rfl := serve_fst_of_serveAll_cons h
    rw [serveAll_cons_pending c cs s hr] at h
    cases h
    rfl
  · intro hserve
    rw [serveAll_cons_pending c cs s (by rwa [hserve]), hserve]

end

/-- Only the last reply can say that its command has not completed. -/
theorem completed_of_mem_dropLast_serveAll {cs : List Command} {s : State} {r : Reply}
    (h : r ∈ (serveAll cs s).1.dropLast) : r.completed = true := by
  induction cs generalizing s with
  | nil => cases h
  | cons c cs ih =>
    cases hc : (serve c s).1.completed with
    | false =>
      rw [serveAll_cons_pending c cs s hc] at h
      cases h
    | true =>
      rw [serveAll_cons_completed c cs s hc] at h
      by_cases hnil : (serveAll cs (serve c s).2).1 = []
      · rw [hnil] at h
        cases h
      · rw [List.dropLast_cons_of_ne_nil hnil] at h
        rcases List.mem_cons.mp h with rfl | h
        · exact hc
        · exact ih h

/-- Behind completed commands the next ones are served, from the state they have led to. -/
theorem serveAll_append_of_completed {cs : List Command} {s : State}
    (h : ∀ r ∈ (serveAll cs s).1, r.completed = true) (ds : List Command) :
    (serveAll cs s).1.length = cs.length ∧
    serveAll (cs ++ ds) s =
      ((serveAll cs s).1 ++ (serveAll ds (serveAll cs s).2).1, (serveAll ds (serveAll cs s).2).2) := by
  induction cs generalizing s with
  | nil => exact ⟨rfl, rfl⟩
  | cons c cs ih =>
    cases hc : (serve c s).1.completed with
    | false =>
      rw [serveAll_cons_pending c cs s hc] at h
      exact absurd (h _ List.mem_cons_self) (hc ▸ nofun)
    | true =>
      rw [serveAll_cons_completed c cs s hc] at h ⊢
      obtain ⟨hlen, happend⟩ := ih fun r hr => h r (List.mem_cons_of_mem _ hr)
      rw [List.cons_append, serveAll_cons_completed c _ s hc, happend]
      exact ⟨congrArg (· + 1) hlen, rfl⟩

/-- Behind a command that has not completed, nothing has an effect or a reply. -/
theorem serveAll_append_of_pending {cs : List Command} {s : State} {r : Reply} (hr : r.completed = false)
    (h : r ∈ (serveAll cs s).1) (ds : List Command) : serveAll (cs ++ ds) s = serveAll cs s := by
  induction cs generalizing s with
  | nil => cases h
  | cons c cs ih =>
    cases hc : (serve c s).1.completed with
    | false => rw [List.cons_append, serveAll_cons_pending c _ s hc, serveAll_cons_pending c cs s hc]
    | true =>
      rw [serveAll_cons_completed c cs s hc] at h
      rcases List.mem_cons.mp h with rfl | h
      · exact absurd hc (hr ▸ nofun)
      · rw [List.cons_append, serveAll_cons_completed c _ s hc, serveAll_cons_completed c cs s hc, ih h]

/-- A RUN goes on, whatever waits behind it, exactly while its steps return OK. -/
theorem serveAll_run_eq_running_iff {fuel : Nat} {ds : List Command} {s t : State} :
    serveAll (.run fuel :: ds) s = ([.running], t) ↔ okSteps fuel s t := by
  rw [serveAll_cons_eq_iff_of_pending rfl, serve_run_eq_running_iff, run_eq_outOfFuel_iff]

/-- The host's own loop of STEPs. -/
theorem serveAll_replicate_step_eq_ok_iff {n : Nat} {s t : State} :
    serveAll (List.replicate n .step) s = (List.replicate n (.status .ok), t) ↔ okSteps n s t := by
  induction n generalizing s with
  | zero => simp [okSteps, eq_comm]
  | succ n ih =>
    rw [List.replicate_succ, List.replicate_succ, serveAll_cons_eq_iff_of_completed rfl]
    simp only [serve_step_eq_status_iff, ih, okSteps, and_assoc]

/-- Settles O60: completed commands hand on, one that has not completed does not, and the RUN and the STEPs by their
steps with OK. -/
theorem commandsAreSerialised : Obligations.CommandsAreSerialised := by
  refine fun cs ds s => ⟨fun r hr => ?lastOnly, fun h => ?handsOn, fun h => ?blocks,
    fun _ _ => serveAll_run_eq_running_iff, fun _ _ => serveAll_replicate_step_eq_ok_iff⟩
  case lastOnly => exact r.completed_iff.mp (completed_of_mem_dropLast_serveAll hr)
  case handsOn => exact serveAll_append_of_completed (fun r hr => r.completed_iff.mpr (h r hr)) ds
  case blocks => exact serveAll_append_of_pending (r := .running) rfl h ds

end Sys2Proof.Machine
end

section
/-! PROOFS. Reset and hazards (70_reset_and_hazards.md): the tags a step can leave in the slots (R142), what INIT and
LOAD make of every piece of state (R137, R139, R140), and the RUN of a jump to its own offset (R146). -/

namespace Sys2Proof.Machine

/-! ## The values a write leaves in the slots (R34) -/

section
variable {s : State} {k : Nat} {v w : TypedValue}

theorem mem_slots_writeG (h : w ∈ slots (writeG k v s)) : w ∈ slots s ∨ w = v := by
  simp only [slots, writeG_globals, writeG_locals, writeG_stackVars, List.mem_append] at h ⊢
  rcases h with (hG | hL) | hS
  · exact (List.mem_or_eq_of_mem_set hG).imp_left fun hold => .inl (.inl hold)
  · exact .inl (.inl (.inr hL))
  · exact .inl (.inr hS)

theorem mem_slots_writeL (h : w ∈ slots (writeL k v s)) : w ∈ slots s ∨ w = v := by
  simp only [slots, writeL_globals, writeL_locals, writeL_stackVars, List.mem_append] at h ⊢
  rcases h with (hG | hL) | hS
  · exact .inl (.inl (.inl hG))
  · exact (List.mem_or_eq_of_mem_set hL).imp_left fun hold => .inl (.inr hold)
  · exact .inl (.inr hS)

theorem mem_slots_writeS (h : w ∈ slots (writeS k v s)) : w ∈ slots s ∨ w = v := by
  simp only [slots, writeS_globals, writeS_locals, writeS_stackVars, List.mem_append] at h ⊢
  rcases h with hGL | hS
  · exact .inl (.inl hGL)
  · exact (List.mem_or_eq_of_mem_set hS).imp_left .inr

/-- Behind the write of a value whose tag has a source, every slot's tag has one. -/
theorem tagFrom_of_mem_or_eq (hv : TagFrom s v) (h : w ∈ slots s ∨ w = v) : TagFrom s w := by
  rcases h with hold | rfl
  · exact tagFrom_mem hold
  · exact hv

end

/-! ## No tag but I32 is made out of nothing (R142) -/

/-- The write of an instruction leaves no tag in a slot but I32 and those that were there. -/
theorem tagFrom_of_writeOf {i : Instr} {s u : State} (h : WriteOf i s u) : ∀ w ∈ slots u, TagFrom s w := by
  cases i with
  | nop | halt | jmp | jz | jnz =>
    obtain rfl := h
    exact fun _ => tagFrom_mem
  | loadG | loadL | loadII32 | addI32 | addU32 | subI32 | mulI32 | divI32 =>
    obtain ⟨v, hv, rfl⟩ := h
    exact fun _ hw => tagFrom_of_mem_or_eq hv (mem_slots_writeS hw)
  | storeG =>
    obtain ⟨v, hv, rfl⟩ := h
    exact fun _ hw => tagFrom_of_mem_or_eq hv (mem_slots_writeG hw)
  | storeL =>
    obtain ⟨v, hv, rfl⟩ := h
    exact fun _ hw => tagFrom_of_mem_or_eq hv (mem_slots_writeL hw)
  | cmpI32 | cmpU32 =>
    obtain ⟨f, -, rfl⟩ := h
    exact fun _ => tagFrom_mem
  | printU32 | printF32 | printI32 =>
    obtain ⟨kind, word, rfl⟩ := h
    exact fun _ => tagFrom_mem

/-- Nor does a step: an error writes no slot. -/
theorem tagFrom_of_step {s t : State} (h : step s = .next t) : ∀ w ∈ slots t, TagFrom s w := by
  rcases step_next_cases s t h with ⟨e, -, rfl⟩ | ⟨i, u, target, -, -, hu, -, rfl⟩
  · exact fun _ => tagFrom_mem
  · exact fun w hw => tagFrom_of_writeOf hu w hw

theorem step_keeps_onlyI32 (s t : State) (hs : OnlyI32 s) (h : step s = .next t) : OnlyI32 t := by
  intro w hw
  rcases tagFrom_of_step h w hw with hi32 | ⟨v, hv, htag⟩
  · exact .inr hi32
  · exact htag ▸ hs v hv

/-! ## What INIT and LOAD make of the state (R137, R139, R140) -/

theorem banksFit_init (p : Params) : BanksFit (State.init p) := by simp [BanksFit]

theorem slots_init_eq_void (p : Params) : ∀ v ∈ slots (State.init p), v = .void :=
  (allVoid_iff _).mp ⟨fun _ => List.eq_of_mem_replicate, fun _ => List.eq_of_mem_replicate,
    fun _ => List.eq_of_mem_replicate⟩

theorem onlyI32_init (p : Params) : OnlyI32 (State.init p) :=
  fun v hv => .inl (slots_init_eq_void p v hv ▸ rfl)

/-- The state behind a LOAD of `bytes` that fit (R139). -/
def loaded (bytes : List Byte) (s : State) : State :=
  { s with program := s.program.writeBytes 0 bytes, programLen := BitVec.ofNat 32 bytes.length, pc := 0 }

section
variable {s : State} {bytes : List Byte}

theorem cmdLoad_of_le (h : bytes.length ≤ s.params.programMaxSize) : cmdLoad bytes s = (.ok, loaded bytes s) :=
  if_pos h

theorem cmdLoad_of_gt (h : s.params.programMaxSize < bytes.length) : cmdLoad bytes s = (.errProgramTooLarge, s) :=
  if_neg h.not_ge

theorem slots_cmdLoad (bytes : List Byte) (s : State) : slots (cmdLoad bytes s).2 = slots s := by
  rcases le_or_gt bytes.length s.params.programMaxSize with hle | hgt
  · rw [cmdLoad_of_le hle]
    rfl
  · rw [cmdLoad_of_gt hgt]

theorem read_program_loaded_of_lt (hs : s.program.wf) {a : Nat} (h : a < bytes.length) :
    (loaded bytes s).program.read a = bytes[a] := by
  rw [loaded, Memory.read_writeBytes bytes s.program 0 a hs]
  simp [h]

theorem read_program_loaded_of_ge (hs : s.program.wf) {a : Nat} (h : bytes.length ≤ a) :
    (loaded bytes s).program.read a = s.program.read a := by
  rw [loaded, Memory.read_writeBytes bytes s.program 0 a hs]
  simp [h]

/-- A legal `PROGRAM_MAX_SIZE` fits the 32 bits of `program_len` (R4, R24). -/
theorem toNat_programLen_loaded (hp : s.params.wf) (h : bytes.length ≤ s.params.programMaxSize) :
    (loaded bytes s).programLen.toNat = bytes.length := by
  have hmax := hp.programMaxSize_le
  exact (BitVec.toNat_ofNat ..).trans (Nat.mod_eq_of_lt (by omega))

end

/-- Settles O51: a step leaves no tag but I32 and those it found, INIT leaves VOID alone, and LOAD writes no slot. -/
theorem onlyI32ValuesFromInit : Obligations.OnlyI32ValuesFromInit := by
  refine ⟨fun s t => ?tags, step_keeps_onlyI32, fun p cs => ?fromInit⟩
  case tags => exact tagFrom_of_step
  case fromInit =>
    exact serveAll_keeps OnlyI32 step_keeps_onlyI32 (fun s _ => onlyI32_init s.params)
      (fun s bytes hs => by rwa [OnlyI32, slots_cmdLoad]) cs (State.init p) (onlyI32_init p)

/-- Settles O53: INIT's state is the initial one of the same build, with the record of events kept. -/
theorem initResetsEverything : Obligations.InitResetsEverything := by
  refine fun s => ⟨cmdInit s, rfl, rfl, rfl, rfl, rfl, rfl, fun a => Memory.read_nil a, banksFit_init s.params,
    slots_init_eq_void s.params, fun b hb => ?buffers, rfl⟩
  case buffers =>
    obtain rfl := List.eq_of_mem_replicate hb
    exact ⟨rfl, fun a => Memory.read_nil a⟩

/-- Settles O54: a program that fits is written from offset 0 up, and a larger one is refused before any write. -/
theorem loadStoresTheProgram : Obligations.LoadStoresTheProgram := by
  intro s bytes hp ⟨hwf, _, _⟩
  refine ⟨fun hle => ⟨loaded bytes s, ?reply, fun a ha => ?stored, fun a ha => ?kept, ?len, rfl, rfl⟩,
    fun hgt => ?tooLarge⟩
  case reply => rw [serve, cmdLoad_of_le hle]
  case stored => rw [read_program_loaded_of_lt hwf ha, List.getElem?_eq_getElem ha]
  case kept => exact read_program_loaded_of_ge hwf ha
  case len => exact toNat_programLen_loaded hp hle
  case tooLarge => rw [serve, cmdLoad_of_gt hgt]

/-! ## A jump to its own offset (R100, R146) -/

/-- Its step returns OK and changes nothing but the status recorded: its target, `pc`, lies in the loaded program. -/
theorem step_of_fetches_self_jmp {s : State} {opd : Byte} {imm2 : Word} (hp : ProgramFits s)
    (hf : Fetches s (.jmp opd s.pc imm2)) : step s = .next { s with stepStatus := .ok } := by
  have hin : s.pc.toNat + 10 ≤ s.programLen.toNat := hf.1
  have hlt : s.pc.toNat < s.programLen.toNat := by omega
  exact (step_of_fetches hp hf).trans (takeJump_of_lt hlt)

/-- Settles O57: the status recorded is nothing that the fetch reads, so each step finds the same jump. -/
theorem selfLoopNeverReturns : Obligations.SelfLoopNeverReturns := by
  intro s opd imm2 hp hf fuel
  induction fuel generalizing s with
  | zero => rfl
  | succ fuel ih =>
    rw [run_of_step_ok (step_of_fetches_self_jmp hp hf) rfl]
    exact ih { s with stepStatus := .ok } hp hf

end Sys2Proof.Machine
end
